-- ==== Sys2Proof/Word.lean ====
section
/-!
DEFINITION. The one word type of the block (spec/00_scope.md R7, `WORD_BITS`; spec/20_memory.md R52: every
access moves exactly one whole 16-bit word).
-/

namespace Sys2Proof

/-- An instruction word: an opaque 16-bit value, bit 15 the most significant (R7, R12, R70). -/
abbrev Word := BitVec 16

end Sys2Proof
end

