-- ==== Sys2Proof/Syntax.lean ====
section
/-!
DEFINITION. The twelve instruction forms (spec/30_encoding.md R96) and the instruction record `(form, operands,
delay)` of ENCODE (spec/40_codec.md R100): one constructor per row of spec/opcode_table.json, every operand a
natural number, unbounded, as R100 and the form rules R120 to R157 give it.
-/

namespace Sys2Proof

/-- The form of an instruction word, one of twelve (R96, R100). -/
inductive Form where
  | jmp | wait | inp | out | push | pull | movToRx | movFromRx | mov | nop | irq | set
deriving DecidableEq, Repr

/-- The instruction record of ENCODE (R100). The operands come in the order of the form's rule, the delay last.
An operand may lie outside its field: ENCODE masks it (R102); `Instr.WellFormed` says that none does. -/
inductive Instr where
  /-- `jmp`, class 000 (R120). -/
  | jmp (cond addr delay : Nat)
  /-- `wait`, class 001 (R121). -/
  | wait (pol src index delay : Nat)
  /-- `in`, class 010 (R122); `in` is a word of Lean's, so the constructor is `inp`. -/
  | inp (src count delay : Nat)
  /-- `out`, class 011 (R123). -/
  | out (dst count delay : Nat)
  /-- `push`, class 100 (R150). -/
  | push (ifFull block delay : Nat)
  /-- `pull`, class 100 (R151). -/
  | pull (ifEmpty block delay : Nat)
  /-- `mov_to_rx`, class 100 (R152). -/
  | movToRx (idxImm index delay : Nat)
  /-- `mov_from_rx`, class 100 (R153). -/
  | movFromRx (idxImm index delay : Nat)
  /-- `mov`, class 101 (R154). -/
  | mov (dst op src delay : Nat)
  /-- `nop`, class 101 with operand bits `0x42` (R155). -/
  | nop (delay : Nat)
  /-- `irq`, class 110 (R156). -/
  | irq (clearBit waitBit index delay : Nat)
  /-- `set`, class 111 (R157). -/
  | set (dst data delay : Nat)
deriving DecidableEq, Repr

/-- The form of an instruction record. -/
def Instr.form : Instr → Form
  | .jmp _ _ _ => .jmp
  | .wait _ _ _ _ => .wait
  | .inp _ _ _ => .inp
  | .out _ _ _ => .out
  | .push _ _ _ => .push
  | .pull _ _ _ => .pull
  | .movToRx _ _ _ => .movToRx
  | .movFromRx _ _ _ => .movFromRx
  | .mov _ _ _ _ => .mov
  | .nop _ => .nop
  | .irq _ _ _ _ => .irq
  | .set _ _ _ => .set

/-- The delay of an instruction record, the operand common to all forms (R72, R100). -/
def Instr.delay : Instr → Nat
  | .jmp _ _ d => d
  | .wait _ _ _ d => d
  | .inp _ _ d => d
  | .out _ _ d => d
  | .push _ _ d => d
  | .pull _ _ d => d
  | .movToRx _ _ d => d
  | .movFromRx _ _ d => d
  | .mov _ _ _ d => d
  | .nop d => d
  | .irq _ _ _ d => d
  | .set _ _ d => d

end Sys2Proof
end

