-- ==== Sys2Proof/WellFormed.lean ====
section
/-!
DEFINITION. When an instruction record is one that DECODE can answer: every operand and the delay within its
field width (spec/40_codec.md R110 item 3, "every valid operand combination"; widths of spec/30_encoding.md R72
to R80), and a `mov` not the no-op pattern, whose word belongs to `nop` (R91, R92, R154).
-/

namespace Sys2Proof

/-- A value fits an `n`-bit field. -/
abbrev Fits (n v : Nat) : Prop := v < 2 ^ n

/-- The operands `dst = 2, op = 0, src = 2` of a MOV word, "Y ← (no-op) ← Y" (R91). -/
abbrev IsNopPattern (dst op src : Nat) : Prop := dst = 2 ∧ op = 0 ∧ src = 2

/-- Well-formed instruction records. ENCODE accepts the others too and masks them (R102). -/
abbrev Instr.WellFormed (i : Instr) : Prop :=
  match i with
  | .jmp cond addr delay => Fits 3 cond ∧ Fits 5 addr ∧ Fits 5 delay
  | .wait pol src index delay => Fits 1 pol ∧ Fits 2 src ∧ Fits 5 index ∧ Fits 5 delay
  | .inp src count delay => Fits 3 src ∧ Fits 5 count ∧ Fits 5 delay
  | .out dst count delay => Fits 3 dst ∧ Fits 5 count ∧ Fits 5 delay
  | .push ifFull block delay => Fits 1 ifFull ∧ Fits 1 block ∧ Fits 5 delay
  | .pull ifEmpty block delay => Fits 1 ifEmpty ∧ Fits 1 block ∧ Fits 5 delay
  | .movToRx idxImm index delay => Fits 1 idxImm ∧ Fits 2 index ∧ Fits 5 delay
  | .movFromRx idxImm index delay => Fits 1 idxImm ∧ Fits 2 index ∧ Fits 5 delay
  | .mov dst op src delay => Fits 3 dst ∧ Fits 2 op ∧ Fits 3 src ∧ Fits 5 delay ∧ ¬ IsNopPattern dst op src
  | .nop delay => Fits 5 delay
  | .irq clearBit waitBit index delay => Fits 1 clearBit ∧ Fits 1 waitBit ∧ Fits 5 index ∧ Fits 5 delay
  | .set dst data delay => Fits 3 dst ∧ Fits 5 data ∧ Fits 5 delay

end Sys2Proof
end

