-- ==== Sys2Proof/Decode.lean ====
section
/-!
DEFINITION. The bit-level codec: the fields of a word (spec/30_encoding.md R70 to R80), the decoder's choice of
form (R92) and the opcode map (R96), the decoder from words to instruction records (the `form`, `fields` and
`delay` of spec/40_codec.md R103), and after it the encoder (R101 and the form rules R120 to R157). DECODE accepts
every word (R93, R104) and ENCODE every record (R100, R102), so neither rejects anything.
-/

namespace Sys2Proof

/-- `mask_n(v)` of R13: the low `n` bits of a natural number. -/
def mask (n v : Nat) : Nat := v % 2 ^ n

/-- The `n`-bit field of a word from bit `lo` upwards, read as an unsigned number: `w[lo+n-1:lo]` of R12. -/
def field (w : Word) (lo n : Nat) : Nat := w.toNat / 2 ^ lo % 2 ^ n

/-! ## Decoding -/

/-- The form of a word, in the order of R92: the class `w[15:13]` (R71); in class 100, `w[4]` and then `w[7]`
(R77); in class 101 the no-op test of R91 before the general MOV form. -/
def formOf (w : Word) : Form :=
  match field w 13 3 with
  | 0 => .jmp
  | 1 => .wait
  | 2 => .inp
  | 3 => .out
  | 4 =>
    if field w 4 1 = 0 then
      if field w 7 1 = 0 then .push else .pull
    else
      if field w 7 1 = 0 then .movToRx else .movFromRx
  | 5 => if field w 0 8 = 0x42 then .nop else .mov
  | 6 => .irq
  | _ => .set

/-- The instruction record of a word: its form, its operand fields and its delay (R103, fields by R73 to R80 and
the form rules). Bits that belong to no field are not read (R94). -/
def decodeWord (w : Word) : Instr :=
  match formOf w with
  | .jmp => .jmp (field w 5 3) (field w 0 5) (field w 8 5)
  | .wait => .wait (field w 7 1) (field w 5 2) (field w 0 5) (field w 8 5)
  | .inp => .inp (field w 5 3) (field w 0 5) (field w 8 5)
  | .out => .out (field w 5 3) (field w 0 5) (field w 8 5)
  | .push => .push (field w 6 1) (field w 5 1) (field w 8 5)
  | .pull => .pull (field w 6 1) (field w 5 1) (field w 8 5)
  | .movToRx => .movToRx (field w 3 1) (field w 0 2) (field w 8 5)
  | .movFromRx => .movFromRx (field w 3 1) (field w 0 2) (field w 8 5)
  | .mov => .mov (field w 5 3) (field w 3 2) (field w 0 3) (field w 8 5)
  | .nop => .nop (field w 8 5)
  | .irq => .irq (field w 6 1) (field w 5 1) (field w 0 5) (field w 8 5)
  | .set => .set (field w 5 3) (field w 0 5) (field w 8 5)

/-- What the host reads from an opcode-table row: the row's `nbits` bits, the bits above them zero, are one 16-bit
word (R70: there is no other length), and DECODE refuses no word (R93). -/
def decodeTableWord (nbits w : Nat) : Option Instr :=
  if nbits ≤ 16 then some (decodeWord (BitVec.ofNat 16 (mask nbits w))) else none

/-! ## The opcode map -/

/-- One row of the opcode map R96: a word `w` is of the row's form when `w & mask = bits`. -/
structure OpcodeRow where
  form : Form
  mask : Word
  bits : Word
deriving DecidableEq, Repr

/-- The twelve rows of R96, `nop` before `mov` (R92). -/
def opcodeMap : List OpcodeRow :=
  [⟨.jmp, 0xE000, 0x0000⟩, ⟨.wait, 0xE000, 0x2000⟩, ⟨.inp, 0xE000, 0x4000⟩, ⟨.out, 0xE000, 0x6000⟩,
   ⟨.push, 0xE090, 0x8000⟩, ⟨.pull, 0xE090, 0x8080⟩, ⟨.movToRx, 0xE090, 0x8010⟩, ⟨.movFromRx, 0xE090, 0x8090⟩,
   ⟨.nop, 0xE0FF, 0xA042⟩, ⟨.mov, 0xE000, 0xA000⟩, ⟨.irq, 0xE000, 0xC000⟩, ⟨.set, 0xE000, 0xE000⟩]

/-- The first row of the opcode map that a word matches. -/
def mapRow (w : Word) : Option OpcodeRow := opcodeMap.find? (fun r => w &&& r.mask == r.bits)

/-- The operand bits of a form that belong to no field (R94): ENCODE writes them 0, DECODE does not read them. -/
def ignoredMask (f : Form) : Word :=
  match f with
  | .push => 0x000F
  | .pull => 0x000F
  | .movToRx => 0x0064
  | .movFromRx => 0x0064
  | .irq => 0x0080
  | .jmp => 0
  | .wait => 0
  | .inp => 0
  | .out => 0
  | .mov => 0
  | .nop => 0
  | .set => 0

/-! ## Encoding -/

/-- The packing common to every form (R101): the class at 15:13, the masked delay at 12:8, the operand byte at 7:0.
The parts do not overlap, so `|` is addition (R101). -/
def packWord (cls delay operandByte : Nat) : Word :=
  BitVec.ofNat 16 (cls * 2 ^ 13 + mask 5 delay * 2 ^ 8 + operandByte)

/-- R120. -/
def encodeJmp (cond addr delay : Nat) : Word := packWord 0 delay (mask 3 cond * 2 ^ 5 + mask 5 addr)

/-- R121. -/
def encodeWait (pol src index delay : Nat) : Word :=
  packWord 1 delay (mask 1 pol * 2 ^ 7 + mask 2 src * 2 ^ 5 + mask 5 index)

/-- R122. A count of 32 is packed as 0 by the masking (R90). -/
def encodeIn (src count delay : Nat) : Word := packWord 2 delay (mask 3 src * 2 ^ 5 + mask 5 count)

/-- R123. A count of 32 is packed as 0 by the masking (R90). -/
def encodeOut (dst count delay : Nat) : Word := packWord 3 delay (mask 3 dst * 2 ^ 5 + mask 5 count)

/-- R150: bits 7 and 4 are 0, bits 3:0 are 0. -/
def encodePush (ifFull block delay : Nat) : Word :=
  packWord 4 delay (mask 1 ifFull * 2 ^ 6 + mask 1 block * 2 ^ 5)

/-- R151: bit 7 is 1, bit 4 is 0, bits 3:0 are 0. -/
def encodePull (ifEmpty block delay : Nat) : Word :=
  packWord 4 delay (2 ^ 7 + mask 1 ifEmpty * 2 ^ 6 + mask 1 block * 2 ^ 5)

/-- R152: bit 7 is 0, bit 4 is 1, bits 6:5 and 2 are 0. -/
def encodeMovToRx (idxImm index delay : Nat) : Word :=
  packWord 4 delay (2 ^ 4 + mask 1 idxImm * 2 ^ 3 + mask 2 index)

/-- R153: bits 7 and 4 are 1, bits 6:5 and 2 are 0. -/
def encodeMovFromRx (idxImm index delay : Nat) : Word :=
  packWord 4 delay (2 ^ 7 + 2 ^ 4 + mask 1 idxImm * 2 ^ 3 + mask 2 index)

/-- R154. -/
def encodeMov (dst op src delay : Nat) : Word :=
  packWord 5 delay (mask 3 dst * 2 ^ 5 + mask 2 op * 2 ^ 3 + mask 3 src)

/-- R155: the operand byte is `0x42` (R91). -/
def encodeNop (delay : Nat) : Word := packWord 5 delay 0x42

/-- R156: bit 7 is 0. -/
def encodeIrq (clearBit waitBit index delay : Nat) : Word :=
  packWord 6 delay (mask 1 clearBit * 2 ^ 6 + mask 1 waitBit * 2 ^ 5 + mask 5 index)

/-- R157. -/
def encodeSet (dst data delay : Nat) : Word := packWord 7 delay (mask 3 dst * 2 ^ 5 + mask 5 data)

/-- ENCODE (R100, R101): total, no operand refused (R102). -/
def encode (i : Instr) : Word :=
  match i with
  | .jmp cond addr delay => encodeJmp cond addr delay
  | .wait pol src index delay => encodeWait pol src index delay
  | .inp src count delay => encodeIn src count delay
  | .out dst count delay => encodeOut dst count delay
  | .push ifFull block delay => encodePush ifFull block delay
  | .pull ifEmpty block delay => encodePull ifEmpty block delay
  | .movToRx idxImm index delay => encodeMovToRx idxImm index delay
  | .movFromRx idxImm index delay => encodeMovFromRx idxImm index delay
  | .mov dst op src delay => encodeMov dst op src delay
  | .nop delay => encodeNop delay
  | .irq clearBit waitBit index delay => encodeIrq clearBit waitBit index delay
  | .set dst data delay => encodeSet dst data delay

/-- The record that DECODE answers for a record's word (R110 items 1 and 2): every operand masked to its field
width (R102), and the no-op pattern of MOV turned into `nop` (R91). -/
def Instr.masked (i : Instr) : Instr :=
  match i with
  | .jmp cond addr delay => .jmp (mask 3 cond) (mask 5 addr) (mask 5 delay)
  | .wait pol src index delay => .wait (mask 1 pol) (mask 2 src) (mask 5 index) (mask 5 delay)
  | .inp src count delay => .inp (mask 3 src) (mask 5 count) (mask 5 delay)
  | .out dst count delay => .out (mask 3 dst) (mask 5 count) (mask 5 delay)
  | .push ifFull block delay => .push (mask 1 ifFull) (mask 1 block) (mask 5 delay)
  | .pull ifEmpty block delay => .pull (mask 1 ifEmpty) (mask 1 block) (mask 5 delay)
  | .movToRx idxImm index delay => .movToRx (mask 1 idxImm) (mask 2 index) (mask 5 delay)
  | .movFromRx idxImm index delay => .movFromRx (mask 1 idxImm) (mask 2 index) (mask 5 delay)
  | .mov dst op src delay =>
    if IsNopPattern (mask 3 dst) (mask 2 op) (mask 3 src) then .nop (mask 5 delay)
    else .mov (mask 3 dst) (mask 2 op) (mask 3 src) (mask 5 delay)
  | .nop delay => .nop (mask 5 delay)
  | .irq clearBit waitBit index delay => .irq (mask 1 clearBit) (mask 1 waitBit) (mask 5 index) (mask 5 delay)
  | .set dst data delay => .set (mask 3 dst) (mask 5 data) (mask 5 delay)

end Sys2Proof
end

