-- ==== Sys2Proof/Config.lean ====
section
/-!
DEFINITION. The fixed parameters of the block (spec/00_scope.md R7) and its one open parameter
(spec/43_builder.md R194, spec/92_eei_decisions.md D25).
-/

namespace Sys2Proof.Config

/-- `NUM_BLOCKS` (R7): block index 0..2. -/
abbrev numBlocks : Nat := 3

/-- `NUM_UNITS` (R7): unit index 0..3; also `ENABLE_MASK_BITS`, one mask bit per unit. -/
abbrev numUnits : Nat := 4

/-- `CAPACITY` (R7): words in the staging buffer and in each block's instruction memory. -/
abbrev capacity : Nat := 32

/-- Where the consumer ORs the wrap bounds into a unit's execution-control word: the least significant bit of
each 5-bit field (R194, parameter `EXECCTRL_WRAP_LAYOUT`). -/
structure WrapLayout where
  wrapTopLsb : Nat
  wrapBottomLsb : Nat
deriving DecidableEq, Repr, Inhabited

/-- The parameter `EXECCTRL_WRAP_LAYOUT`, which the spec leaves OPEN (D25, U17): no value of it can be proved.
Log entry 7. -/
opaque execctrlWrapLayout : WrapLayout

/-- The layout of `SMx_EXECCTRL` on the RP2040 and RP2350 that R194 names from general knowledge: `WRAP_TOP` at
bits 16:12, `WRAP_BOTTOM` at bits 11:7. PRESUMED, log entry 7. Nothing in the machine reads it. -/
def rp2350WrapLayout : WrapLayout := ⟨12, 7⟩

end Sys2Proof.Config
end

