-- ==== Sys2Proof/Machine/State.lean ====
section
/-!
DEFINITION. The state of the block (spec/10_state.md R20 to R32, R38), the requests it accepts
(spec/43_builder.md R180, spec/00_scope.md R10), its responses and output transactions, and the reasons a step
can stop. Everything is plain data. The last four fields of `State` are the model's own (log entries 2 and 3).
-/

namespace Sys2Proof.Machine

/-- A block index 0..2 (R7, R22). -/
abbrev BlockIdx := Fin Config.numBlocks

/-- A unit index 0..3 (R7, R23). -/
abbrev UnitIdx := Fin Config.numUnits

/-- A decode origin offset, 0..31 (R8, D4). -/
abbrev Origin := Fin Config.capacity

/-- A word memory of 32 cells, each `UNWRITTEN` or a 16-bit word (R25, R31, R50): the written cells as (index, word)
pairs, indices strictly rising; an index that is not listed reads as `UNWRITTEN`. Log entry 1. -/
abbrev Memory := List (Nat × Word)

/-- The canonical form of a memory: indices strictly rising and all below `CAPACITY`. `UNWRITTEN` is no word, so no
entry can equal what an unlisted index reads as. -/
def Memory.wf (m : Memory) : Bool :=
  decide (m.Pairwise (fun a b => a.1 < b.1)) && m.all (fun a => decide (a.1 < Config.capacity))

/-- The error codes of R221 (`OK` is `Response.ok`). -/
inductive ErrorCode where
  | blockIndexOutOfRange
  | unitIndexOutOfRange
  | enableMaskInvalid
  | noBlockSelected
  | noUnitSelected
  | blockFinalized
  | capacityExceeded
  | offsetOutOfRange
  | bufferInterleave
  | descriptorInvariant
  | notFinalized
  | unitNotBuilt
  | sessionAborted
deriving DecidableEq, Repr

/-- `status` (R30): running, or aborted by the first failing request of the session. -/
inductive Status where
  | running
  | aborted (code : ErrorCode)
deriving DecidableEq, Repr

/-- The five offsets of a program descriptor (R27), absolute indices into the block's buffer and memory (R56).
`endAt` is the spec's `end`. -/
structure Offsets where
  firstInstr : Nat
  start : Nat
  wrapBottom : Nat
  wrapTop : Nat
  endAt : Nat
deriving DecidableEq, Repr

/-- The states of a selected descriptor (R27, R28). -/
inductive Phase where
  | building
  | configured
  | finalized
deriving DecidableEq, Repr

/-- A program descriptor (R27). While `UNSELECTED` its offsets hold no value (R27, R38, U16), so there are none to
read; a selected descriptor holds all five. Log entry 4. -/
inductive Descriptor where
  | unselected
  | selected (phase : Phase) (offsets : Offsets)
deriving DecidableEq, Repr

/-- What the block keeps for one block index `b`: `cursor[b]` (R24), `desc[b][u]` (R27), `finalized[b]` (R29),
`imem[b]` (R31) and `enabled[b]` (R32). -/
structure Block where
  cursor : Nat
  desc : Vector Descriptor Config.numUnits
  finalized : Bool
  imem : Memory
  enabled : BitVec Config.numUnits
deriving DecidableEq, Repr

/-- One request (R10, R180). Arguments of the calculator's requests are what the requester sends, out-of-range values
included (R220). DECODE's origin is 0..31 by its type (R8), so no error has to refuse another. -/
inductive Request where
  /-- ENCODE of an instruction record (R100). -/
  | encode (i : Instr)
  /-- DECODE of a word against an origin offset (R103). -/
  | decode (w : Word) (origin : Origin)
  /-- SESSION_START (R250). -/
  | sessionStart
  /-- SELECT_BLOCK (R183). -/
  | selectBlock (b : Nat)
  /-- SELECT_UNIT (R184). -/
  | selectUnit (u : Nat)
  /-- MARK_START (R185). -/
  | markStart
  /-- MARK_WRAP_BOTTOM (R186). -/
  | markWrapBottom
  /-- MARK_WRAP_TOP (R187). -/
  | markWrapTop
  /-- MARK_END (R188). -/
  | markEnd
  /-- EMIT (R189): any 16-bit word, neither decoded nor checked. -/
  | emit (w : Word)
  /-- LABEL (R190), the delta 0 by default. -/
  | label (n : Nat := 0)
  /-- CONFIGURE (R191). -/
  | configure
  /-- FINALIZE (R192). -/
  | finalize
  /-- ENABLE (R193). -/
  | enable (m : Nat)
  /-- LIST (R195). -/
  | list (u : Nat)
  /-- Any request of a second requester while a session is open (R11, R232). -/
  | concurrent
deriving DecidableEq, Repr

/-- The structured mnemonic that DECODE answers (R103). `fields` holds the form's operand record, with the delay, as
an instruction record. -/
structure Mnemonic where
  word : Word
  cls : BitVec 3
  delay : BitVec 5
  form : Form
  fields : Instr
  opcode : String
  operands : List String
  delaySuffix : String
  text : String
deriving DecidableEq, Repr

/-- The response of one request (R10, R100, R103, R180, R221). -/
inductive Response where
  /-- `OK`. -/
  | ok
  /-- A number: EMIT's index, LABEL's value, FINALIZE's word count. -/
  | value (n : Nat)
  /-- An error code (R221). -/
  | error (code : ErrorCode)
  /-- ENCODE's word. -/
  | word (w : Word)
  /-- DECODE's record. -/
  | mnemonic (m : Mnemonic)
  /-- LIST's text lines. -/
  | lines (ls : List String)
deriving DecidableEq, Repr

/-- The output transactions of the block (R51, R193, R194). -/
inductive Output where
  | memWrite (b : BlockIdx) (i : Nat) (w : Word)
  | wrapBounds (b : BlockIdx) (u : UnitIdx) (wrapBottom wrapTop : Nat)
  | enable (b : BlockIdx) (m : BitVec Config.numUnits) (starts : List (UnitIdx × Nat))
deriving DecidableEq, Repr

/-- The arguments of a DECODE in progress. -/
structure DecodeArgs where
  word : Word
  origin : Origin
deriving DecidableEq, Repr

/-- Why a step faults. The spec says that no rule does what a fault names (R199, R54; U15: "a model that did would
be `stuck`"), and no run from reset does; each is safe. -/
inductive Fault where
  /-- Raised by FINALIZE when it reads an `UNWRITTEN` cell of the staging buffer (R25, R199, U15). Safe: the model
  stops where the spec gives no value. -/
  | unwrittenBuffer (i : Nat)
  /-- Raised by LIST when it reads an `UNWRITTEN` cell of a block's instruction-memory image (R31, R199, U15). Safe:
  the model stops where the spec gives no value. -/
  | unwrittenImem (b : BlockIdx) (i : Nat)
  /-- Raised by FINALIZE or LIST on an index outside 0..31, which no memory of the block has (R50, R54). Safe. -/
  | noSuchIndex (i : Nat)
deriving DecidableEq, Repr

/-- Why a step is refused. -/
inductive Refusal where
  /-- Raised by `exec`'s arm of an instruction with no meaning; no arm does. Safe. -/
  | notModelled (mnemonic : String)
  /-- Raised by the step on a request of a second, concurrent requester (R232, U3, D27: refused, the model has no
  step for it). Safe: the spec calls the behaviour undefined. -/
  | secondRequester
deriving DecidableEq, Repr

/-- The state of the block (R20), and after it the model's own fields. -/
structure State where
  /-- `active_block` (R22). -/
  activeBlock : Option BlockIdx
  /-- `active_unit` (R23). -/
  activeUnit : Option UnitIdx
  /-- `cursor[b]`, `desc[b][u]`, `finalized[b]`, `imem[b]`, `enabled[b]` (R24, R27, R29, R31, R32). -/
  blocks : Vector Block Config.numBlocks
  /-- `buf`, the one staging buffer (R25). -/
  buf : Memory
  /-- `buf_owner` (R26). -/
  bufOwner : Option BlockIdx
  /-- `status` (R30). -/
  status : Status
  /-- The requester's command stream, the next request first. The model's own field: R20 calls it a parameter. -/
  requests : List Request
  /-- The word and origin of the DECODE in progress, if one is. The model's own field. -/
  decoding : Option DecodeArgs
  /-- The responses given so far, oldest first (R10). The model's own field. -/
  responses : List Response
  /-- The output transactions issued so far, oldest first (R58). The model's own field. -/
  outputs : List Output
deriving DecidableEq, Repr

/-- A block index's state after SESSION_START (R38). -/
def Block.fresh : Block :=
  { cursor := 0
    desc := Vector.replicate Config.numUnits .unselected
    finalized := false
    imem := []
    enabled := 0 }

/-- Power-on (R251): every piece of state at its value of R38, no request waiting, nothing answered or output. -/
def State.reset : State :=
  { activeBlock := none
    activeUnit := none
    blocks := Vector.replicate Config.numBlocks Block.fresh
    buf := []
    bufOwner := none
    status := .running
    requests := []
    decoding := none
    responses := []
    outputs := [] }

end Sys2Proof.Machine
end

