-- ==== Sys2Proof/Machine/Operands.lean ====
section
/-!
DEFINITION. The operand forms of the codec: the lookup tables of spec/30_encoding.md R81 to R90, the spellings
`dec` and `hex4` of spec/00_scope.md R13, the delay suffix (spec/40_codec.md R107) and the composition of a
structured mnemonic (R103, R108). A table's last arm covers values no field of its width holds.
-/

namespace Sys2Proof.Machine

/-! ## Spellings (R13) -/

/-- `dec(n)`: the decimal spelling of an integer, `-` first when it is negative, no leading zeros. -/
def dec (n : Int) : String :=
  match n with
  | .ofNat k => Nat.repr k
  | .negSucc k => "-" ++ Nat.repr (k + 1)

/-- One lower-case hexadecimal digit. -/
def hexDigit (n : Nat) : Char := ("0123456789abcdef".toList).getD n '?'

/-- `hex4(w)`: four lower-case hexadecimal digits. -/
def hex4 (w : Word) : String :=
  String.ofList [hexDigit (field w 12 4), hexDigit (field w 8 4), hexDigit (field w 4 4), hexDigit (field w 0 4)]

/-! ## Lookup tables -/

/-- `COND` (R81). -/
def condName (v : Nat) : String :=
  match v with
  | 0 => ""
  | 1 => "!x"
  | 2 => "x--"
  | 3 => "!y"
  | 4 => "y--"
  | 5 => "x!=y"
  | 6 => "pin"
  | 7 => "!osre"
  | _ => "???"

/-- `WAITSRC` (R82). -/
def waitSrcName (v : Nat) : String :=
  match v with
  | 0 => "gpio"
  | 1 => "pin"
  | 2 => "irq"
  | 3 => "jmppin"
  | _ => "???"

/-- `INSRC` (R83); 4 and 5 are reserved (R109). -/
def inSrcName (v : Nat) : String :=
  match v with
  | 0 => "pins"
  | 1 => "x"
  | 2 => "y"
  | 3 => "null"
  | 4 => "reserved"
  | 5 => "reserved"
  | 6 => "isr"
  | 7 => "osr"
  | _ => "???"

/-- `OUTDST` (R84). -/
def outDstName (v : Nat) : String :=
  match v with
  | 0 => "pins"
  | 1 => "x"
  | 2 => "y"
  | 3 => "null"
  | 4 => "pindirs"
  | 5 => "pc"
  | 6 => "isr"
  | 7 => "exec"
  | _ => "???"

/-- `MOVDST` (R85). -/
def movDstName (v : Nat) : String :=
  match v with
  | 0 => "pins"
  | 1 => "x"
  | 2 => "y"
  | 3 => "pindirs"
  | 4 => "exec"
  | 5 => "pc"
  | 6 => "isr"
  | 7 => "osr"
  | _ => "???"

/-- `MOVOP` (R86): the text before the source's name; 3 is reserved and reads `???` (R109). -/
def movOpName (v : Nat) : String :=
  match v with
  | 0 => ""
  | 1 => "!"
  | 2 => "::"
  | _ => "???"

/-- `MOVSRC` (R87); 4 is reserved (R109). -/
def movSrcName (v : Nat) : String :=
  match v with
  | 0 => "pins"
  | 1 => "x"
  | 2 => "y"
  | 3 => "null"
  | 4 => "reserved"
  | 5 => "status"
  | 6 => "isr"
  | 7 => "osr"
  | _ => "???"

/-- `SETDST` (R88); 3, 5, 6 and 7 are reserved (R109). -/
def setDstName (v : Nat) : String :=
  match v with
  | 0 => "pins"
  | 1 => "x"
  | 2 => "y"
  | 3 => "reserved"
  | 4 => "pindirs"
  | 5 => "reserved"
  | 6 => "reserved"
  | 7 => "reserved"
  | _ => "???"

/-- `IRQINDEX(i)` (R89): the index mode `i[4:3]` and the flag number `i[2:0]`. -/
def irqIndexName (i : Nat) : String :=
  match i / 2 ^ 3 % 2 ^ 2 with
  | 0 => dec (i % 2 ^ 3 : Nat)
  | 1 => "prev " ++ dec (i % 2 ^ 3 : Nat)
  | 2 => dec (i % 2 ^ 3 : Nat) ++ " rel"
  | _ => "next " ++ dec (i % 2 ^ 3 : Nat)

/-- The count that the BitCount field of IN and OUT encodes (R90): field 0 is 32. -/
def bitCount (n : Nat) : Nat := if n = 0 then 32 else n

/-- The slot of the indexed MOV forms (R152, R153): `y` when IdxI is 0, else the Index field. -/
def slotName (idxImm index : Nat) : String := if idxImm = 0 then "y" else dec (index : Nat)

/-! ## The structured mnemonic -/

/-- What a form's rule gives of a decoded word: its opcode name, its operand names and its body text. -/
structure Rendering where
  opcode : String
  operands : List String
  body : String
deriving DecidableEq, Repr

/-- The delay suffix (R107). -/
def delaySuffix (delay : Nat) : String := if delay = 0 then "" else " [" ++ dec (delay : Nat) ++ "]"

/-- The structured mnemonic (R103) of the word `w`, whose instruction record is `i` and whose form's rule gives the
rendering `r`: class and delay are read the same way for every word (R105), the text is body and suffix (R108). -/
def mnemonicOf (i : Instr) (r : Rendering) (w : Word) : Mnemonic :=
  { word := w
    cls := BitVec.ofNat 3 (field w 13 3)
    delay := BitVec.ofNat 5 (field w 8 5)
    form := i.form
    fields := i
    opcode := r.opcode
    operands := r.operands
    delaySuffix := delaySuffix (field w 8 5)
    text := r.body ++ delaySuffix (field w 8 5) }

end Sys2Proof.Machine
end

