-- ==== Sys2Proof/Machine/Ops.lean ====
section
/-!
DEFINITION. The named operations that every meaning is written over: reading and writing a word memory
(spec/20_memory.md R50 to R54), the per-block state, responding, the consumer's side of the wrap bounds
(spec/43_builder.md R194), raising an error (spec/60_exceptions.md R222, R223: this block's
one exception entry), SESSION_START (spec/70_reset_and_hazards.md R250: the one way back from it, R225), the test
of `status` common to the calculator's requests (R181), and one codec transaction (spec/40_codec.md R100, R103).
-/

namespace Sys2Proof.Machine

/-- The three outcomes of a step of this machine. -/
abbrev Out := Host.Outcome State Fault Refusal

/-! ## Word memories -/

/-- What a cell holds: `none` is `UNWRITTEN`. -/
def Memory.lookup (m : Memory) (i : Nat) : Option Word :=
  match m with
  | [] => none
  | (j, w) :: rest => if j = i then some w else Memory.lookup rest i

/-- Write one word, keeping the canonical form. -/
def Memory.write (m : Memory) (i : Nat) (w : Word) : Memory :=
  match m with
  | [] => [(i, w)]
  | (j, v) :: rest =>
    if i < j then (i, w) :: (j, v) :: rest
    else if i = j then (i, w) :: rest
    else (j, v) :: Memory.write rest i w

/-- Write words at consecutive indices from `i` on, ascending. -/
def Memory.writeFrom (m : Memory) (i : Nat) (ws : List Word) : Memory :=
  match ws with
  | [] => m
  | w :: rest => (m.write i w).writeFrom (i + 1) rest

/-- Read a cell for use as a word: an index outside the memory and an `UNWRITTEN` cell have none (R54, R199). -/
def Memory.read (m : Memory) (i : Nat) (unwritten : Fault) : Except Fault Word :=
  if Config.capacity ≤ i then .error (.noSuchIndex i)
  else
    match m.lookup i with
    | none => .error unwritten
    | some w => .ok w

/-! ## Per-block state -/

/-- The state of block index `b`. -/
def State.block (s : State) (b : BlockIdx) : Block := s.blocks.get b

/-- Replace the state of block index `b`. -/
def State.setBlock (s : State) (b : BlockIdx) (k : Block) : State := { s with blocks := s.blocks.set b k }

/-- `cursor[b]` (R24). -/
def State.cursor (s : State) (b : BlockIdx) : Nat := (s.block b).cursor

/-- `finalized[b]` (R29). -/
def State.isFinalized (s : State) (b : BlockIdx) : Bool := (s.block b).finalized

/-- `desc[b][u]` within one block's state (R27). -/
def Block.descOf (k : Block) (u : UnitIdx) : Descriptor := k.desc.get u

/-- `desc[b][u]` (R27). -/
def State.desc (s : State) (b : BlockIdx) (u : UnitIdx) : Descriptor := (s.block b).descOf u

/-- `desc[b][u] <- d`. -/
def State.setDesc (s : State) (b : BlockIdx) (u : UnitIdx) (d : Descriptor) : State :=
  s.setBlock b { s.block b with desc := (s.block b).desc.set u d }

/-- The units of a block, ascending: `u in 0 .. NUM_UNITS-1`. -/
def allUnits : List UnitIdx := [0, 1, 2, 3]

/-- Whether a descriptor is FINALIZE's to check and finish: its state is `BUILDING` or `CONFIGURED` (R192). -/
def Descriptor.openOffsets (d : Descriptor) : Option Offsets :=
  match d with
  | .unselected => none
  | .selected .building o => some o
  | .selected .configured o => some o
  | .selected .finalized _ => none

/-- The offsets of a `FINALIZED` descriptor (R193, R195). -/
def Descriptor.finalOffsets (d : Descriptor) : Option Offsets :=
  match d with
  | .unselected => none
  | .selected .building _ => none
  | .selected .configured _ => none
  | .selected .finalized o => some o

/-- Whether a descriptor is selected: its state is not `UNSELECTED` (R28). -/
def Descriptor.isSelected (d : Descriptor) : Bool :=
  match d with
  | .unselected => false
  | .selected _ _ => true

/-! ## Responses, errors, session start -/

/-- End the request with a response (R10, R13). -/
def State.respond (s : State) (r : Response) : State :=
  { s with decoding := none, responses := s.responses ++ [r] }

/-- Raise an error code (R222, R223): the status takes the code, the code is the response, and nothing else of the
state changes. -/
def State.abort (s : State) (e : ErrorCode) : State := { s with status := .aborted e }.respond (.error e)

/-- Refuse a request of an aborted session (R181): no state changes, the status keeps its first code. -/
def State.refuseAborted (s : State) : State := s.respond (.error .sessionAborted)

/-- SESSION_START (R250): every piece of state to its value of R38, then `OK`. It is accepted in every state,
`ABORTED` included, and issues no output. -/
def State.sessionStart (s : State) : State :=
  { State.reset with requests := s.requests, responses := s.responses, outputs := s.outputs }.respond .ok

/-- The numeric value of an error code (R221). -/
def ErrorCode.value (e : ErrorCode) : Nat :=
  match e with
  | .blockIndexOutOfRange => 1
  | .unitIndexOutOfRange => 2
  | .enableMaskInvalid => 3
  | .noBlockSelected => 4
  | .noUnitSelected => 5
  | .blockFinalized => 6
  | .capacityExceeded => 7
  | .offsetOutOfRange => 8
  | .bufferInterleave => 9
  | .descriptorInvariant => 10
  | .notFinalized => 11
  | .unitNotBuilt => 12
  | .sessionAborted => 13

/-- The code a response carries (R221): 0 for success. -/
def Response.code (r : Response) : Nat :=
  match r with
  | .error e => e.value
  | .ok => 0
  | .value _ => 0
  | .word _ => 0
  | .mnemonic _ => 0
  | .lines _ => 0

/-! ## The wrap bounds -/

/-- What the consumer of `WrapBounds` makes of a unit's execution-control bits (R194): the two 5-bit bounds ORed in
where the layout puts them. The machine's step does not use it: the register image is out of scope (R6 item 2). The
spec states no width for the execution-control word: the 32 bits are this model's (PRESUMED, the width of
`SMx_EXECCTRL`; log entry 7), and a layout that puts a bound past bit 31 is cut there. -/
def wrapBoundsInto (layout : Config.WrapLayout) (execctrl : BitVec 32) (wrapBottom wrapTop : Nat) : BitVec 32 :=
  execctrl ||| BitVec.ofNat 32 (mask 5 wrapTop * 2 ^ layout.wrapTopLsb)
    ||| BitVec.ofNat 32 (mask 5 wrapBottom * 2 ^ layout.wrapBottomLsb)

/-! ## Serving a request -/

/-- Take a request off the stream; a DECODE leaves its word and origin for the codec. -/
def State.accept (s : State) (q : Request) (rest : List Request) : State :=
  { s with
    requests := rest
    decoding :=
      match q with
      | .decode w origin => some ⟨w, origin⟩
      | _ => none }

/-- What a calculator command comes to: a state and a response, an error code, or a read the spec rules out. -/
inductive Reply where
  | done (s : State) (r : Response)
  | raise (e : ErrorCode)
  | stuck (f : Fault)
deriving DecidableEq, Repr

/-- The outcome of a command's reply in the state `s` the request found (R222, R223). -/
def settle (s : State) (r : Reply) : Out :=
  match r with
  | .done t resp => .next (t.respond resp)
  | .raise e => .next (s.abort e)
  | .stuck f => .fault f

/-- One calculator request other than SESSION_START: first the test of `status` (R181), then the command. -/
def calculator (command : State → Reply) (s : State) : Out :=
  match s.status with
  | .aborted _ => .next s.refuseAborted
  | .running => settle s (command s)

/-- One codec transaction on the instruction record `i`: with no DECODE in progress it is ENCODE, and the response
is the form's word; with one, the response is the structured mnemonic of the DECODE's word, by the form's
rendering against the DECODE's origin. No state but the response changes, and no `status` is read (R21, R112). -/
def codecTransaction (i : Instr) (w : Word) (render : Nat → Rendering) (s : State) : Out :=
  match s.decoding with
  | none => .next (s.respond (.word w))
  | some a => .next (s.respond (.mnemonic (mnemonicOf i (render a.origin) a.word)))

end Sys2Proof.Machine
end

