-- ==== Sys2Proof/Machine/Builder.lean ====
section
/-!
DEFINITION. The commands of the program-layout calculator (spec/43_builder.md R182 to R193), each as the reply its
pseudocode comes to in a running session. The test of `status` before them is `calculator` (R181), SESSION_START
is `State.sessionStart` (R250) and LIST is in Listing.lean. Every check stands before the first write (R223), in
the order of R224.
-/

namespace Sys2Proof.Machine

/-- The commands that need a selected block (R190, R192, R193): `NO_BLOCK_SELECTED`, else the block. -/
def withBlock (s : State) (k : BlockIdx → Reply) : Reply :=
  match s.activeBlock with
  | none => .raise .noBlockSelected
  | some b => k b

/-- `RequireUnit()` (R182): the active block and unit, or the error. -/
def requireUnit (s : State) : Except ErrorCode (BlockIdx × UnitIdx) :=
  match s.activeBlock with
  | none => .error .noBlockSelected
  | some b =>
    if s.isFinalized b then .error .blockFinalized
    else
      match s.activeUnit with
      | none => .error .noUnitSelected
      | some u => if (s.desc b u).isSelected then .ok (b, u) else .error .noUnitSelected

/-- The commands that begin with `RequireUnit()`. -/
def withUnit (s : State) (k : BlockIdx → UnitIdx → Reply) : Reply :=
  match requireUnit s with
  | .error e => .raise e
  | .ok (b, u) => k b u

/-- SELECT_BLOCK (R183). -/
def selectBlock (b : Nat) (s : State) : Reply :=
  if h : b < Config.numBlocks then .done { s with activeBlock := some ⟨b, h⟩, activeUnit := none } .ok
  else .raise .blockIndexOutOfRange

/-- SELECT_UNIT (R184): all five offsets capture the cursor. -/
def selectUnit (u : Nat) (s : State) : Reply :=
  if h : u < Config.numUnits then
    withBlock s fun b =>
      if s.isFinalized b then .raise .blockFinalized
      else
        let c := s.cursor b
        if Config.capacity ≤ c then .raise .offsetOutOfRange
        else .done (({ s with activeUnit := some ⟨u, h⟩ }).setDesc b ⟨u, h⟩ (.selected .building ⟨c, c, c, c, c⟩)) .ok
  else .raise .unitIndexOutOfRange

/-- A descriptor with its offsets changed, its state kept. -/
def Descriptor.withOffsets (d : Descriptor) (f : Offsets → Offsets) : Descriptor :=
  match d with
  | .unselected => .unselected
  | .selected phase o => .selected phase (f o)

/-- The four markers (R185 to R188): record the cursor in the active unit's descriptor. -/
def mark (record : Nat → Offsets → Offsets) (s : State) : Reply :=
  withUnit s fun b u =>
    let c := s.cursor b
    if Config.capacity ≤ c then .raise .offsetOutOfRange
    else .done (s.setDesc b u ((s.desc b u).withOffsets (record c))) .ok

/-- MARK_START (R185). -/
def markStart (s : State) : Reply := mark (fun c o => { o with start := c }) s

/-- MARK_WRAP_BOTTOM (R186). -/
def markWrapBottom (s : State) : Reply := mark (fun c o => { o with wrapBottom := c }) s

/-- MARK_WRAP_TOP (R187): it also sets `end`. -/
def markWrapTop (s : State) : Reply := mark (fun c o => { o with wrapTop := c, endAt := c }) s

/-- MARK_END (R188). -/
def markEnd (s : State) : Reply := mark (fun c o => { o with endAt := c }) s

/-- Whether another block has written the shared buffer and is not finalized (R189, D8). -/
def interleaves (s : State) (b : BlockIdx) : Bool :=
  match s.bufOwner with
  | none => false
  | some b2 => decide (b2 ≠ b) && !s.isFinalized b2

/-- EMIT (R189). -/
def emit (w : Word) (s : State) : Reply :=
  withUnit s fun b _ =>
    let c := s.cursor b
    if Config.capacity ≤ c then .raise .capacityExceeded
    else if interleaves s b then .raise .bufferInterleave
    else
      .done (({ s with buf := s.buf.write c w, bufOwner := some b }).setBlock b { s.block b with cursor := c + 1 })
        (.value c)

/-- LABEL (R190): an exact natural number, neither masked nor checked. -/
def label (n : Nat) (s : State) : Reply := withBlock s fun b => .done s (.value (s.cursor b + n))

/-- CONFIGURE (R191): `BUILDING` and `CONFIGURED` become `CONFIGURED` (R28); no offset changes. -/
def configure (s : State) : Reply :=
  withUnit s fun b u =>
    match s.desc b u with
    | .unselected => .raise .noUnitSelected
    | .selected _ o => .done (s.setDesc b u (.selected .configured o)) .ok

/-- FINALIZE's checks of one descriptor against the word count `n` (R192, D14): the two invariants, and no marker at
an index no EMIT filled. Descriptors that are not open are not checked. -/
def finalizable (n : Nat) (d : Descriptor) : Bool :=
  match d.openOffsets with
  | none => true
  | some o =>
    decide (o.firstInstr ≤ o.start ∧ o.wrapBottom ≤ o.wrapTop)
      && decide (o.start < n ∧ o.wrapBottom < n ∧ o.wrapTop < n ∧ o.endAt < n)

/-- The first `n` words of the staging buffer, ascending, as FINALIZE reads them (R192). -/
def bufferWords (m : Memory) (n : Nat) : Except Fault (List Word) :=
  match n with
  | 0 => .ok []
  | i + 1 =>
    match bufferWords m i with
    | .error f => .error f
    | .ok ws =>
      match m.read i (.unwrittenBuffer i) with
      | .error f => .error f
      | .ok w => .ok (ws ++ [w])

/-- FINALIZE's copy of words to consecutive indices from `i` on, ascending (R51, R55): the `MemWrite` outputs. -/
def memWrites (b : BlockIdx) (i : Nat) (ws : List Word) : List Output :=
  match ws with
  | [] => []
  | w :: rest => .memWrite b i w :: memWrites b (i + 1) rest

/-- A descriptor after FINALIZE (R28, R192): an open one becomes `FINALIZED` with its offsets. -/
def Descriptor.closed (d : Descriptor) : Descriptor :=
  match d.openOffsets with
  | none => d
  | some o => .selected .finalized o

/-- The wrap bounds that FINALIZE sends out for one unit, if its descriptor is open (R192, R194). -/
def wrapOutput (b : BlockIdx) (k : Block) (u : UnitIdx) : Option Output :=
  (k.descOf u).openOffsets.map fun o => .wrapBounds b u o.wrapBottom o.wrapTop

/-- FINALIZE's effect on block `b`, the words being read and the checks passed (R192): the `MemWrite` outputs and
then the `WrapBounds` outputs, each ascending; the image loaded, the descriptors closed, `finalized[b]` true. -/
def State.loadBlock (s : State) (b : BlockIdx) (ws : List Word) : State :=
  ({ s with
      outputs := s.outputs ++ memWrites b 0 ws ++ allUnits.filterMap (wrapOutput b (s.block b)) }).setBlock b
    { s.block b with
      imem := (s.block b).imem.writeFrom 0 ws
      desc := (s.block b).desc.map Descriptor.closed
      finalized := true }

/-- FINALIZE (R192). -/
def finalize (s : State) : Reply :=
  withBlock s fun b =>
    if s.isFinalized b then .raise .blockFinalized
    else
      let n := s.cursor b
      if allUnits.all (fun u => finalizable n (s.desc b u)) then
        match bufferWords s.buf n with
        | .error f => .stuck f
        | .ok ws => .done (s.loadBlock b ws) (.value n)
      else .raise .descriptorInvariant

/-- The units of a mask, ascending: the `u` with `m[u] = 1` (R193). -/
def maskUnits (m : Nat) : List UnitIdx := allUnits.filter (fun u => m.testBit u)

/-- The unit and start offset of each listed unit, or none when a unit is not `FINALIZED` in the block (R193). -/
def startsOf (k : Block) (us : List UnitIdx) : Option (List (UnitIdx × Nat)) :=
  match us with
  | [] => some []
  | u :: rest =>
    match (k.descOf u).finalOffsets, startsOf k rest with
    | some o, some l => some ((u, o.start) :: l)
    | some _, none => none
    | none, _ => none

/-- ENABLE (R193). -/
def enable (m : Nat) (s : State) : Reply :=
  if m = 0 ∨ 2 ^ Config.numUnits ≤ m then .raise .enableMaskInvalid
  else
    withBlock s fun b =>
      if s.isFinalized b then
        match startsOf (s.block b) (maskUnits m) with
        | none => .raise .unitNotBuilt
        | some starts =>
          let bits := BitVec.ofNat Config.numUnits m
          .done (({ s with outputs := s.outputs ++ [Output.enable b bits starts] }).setBlock b
            { s.block b with enabled := (s.block b).enabled ||| bits }) .ok
      else .raise .notFinalized

end Sys2Proof.Machine
end

