-- ==== Sys2Proof/Machine/FifoMov.lean ====
section
/-!
DEFINITION. Classes 100 and 101 (spec/42_classes_fifo_mov_irq_set.md R150 to R155): for each form the rendering of
its decoded word and its meaning in this block, one codec transaction. What a unit does on executing the
instruction is out of scope (spec/00_scope.md R6 item 1).
-/

namespace Sys2Proof.Machine

/-- The operand names of PUSH and PULL (R150, R151): the condition when its bit is set, then `block` or `noblock`. -/
def fifoOperands (condition : String) (conditionBit block : Nat) : List String :=
  (if conditionBit = 1 then [condition] else []) ++ (if block = 1 then ["block"] else ["noblock"])

/-- An opcode followed by `" " ++ o` for each operand name `o` (R150, R151). -/
def spacedBody (opcode : String) (operands : List String) : String :=
  operands.foldl (fun text o => text ++ (" " ++ o)) opcode

/-- R150. -/
def renderPush (ifFull block : Nat) : Rendering :=
  { opcode := "push"
    operands := fifoOperands "iffull" ifFull block
    body := spacedBody "push" (fifoOperands "iffull" ifFull block) }

/-- `push` (R150). -/
def execPush (ifFull block delay : Nat) (s : State) : Out :=
  codecTransaction (.push ifFull block delay) (encodePush ifFull block delay) (fun _ => renderPush ifFull block) s

/-- R151. -/
def renderPull (ifEmpty block : Nat) : Rendering :=
  { opcode := "pull"
    operands := fifoOperands "ifempty" ifEmpty block
    body := spacedBody "pull" (fifoOperands "ifempty" ifEmpty block) }

/-- `pull` (R151). -/
def execPull (ifEmpty block delay : Nat) (s : State) : Out :=
  codecTransaction (.pull ifEmpty block delay) (encodePull ifEmpty block delay) (fun _ => renderPull ifEmpty block) s

/-- R152. -/
def renderMovToRx (idxImm index : Nat) : Rendering :=
  { opcode := "mov"
    operands := ["rxfifo[" ++ slotName idxImm index ++ "]", "isr"]
    body := "mov rxfifo[" ++ slotName idxImm index ++ "], isr" }

/-- `mov_to_rx` (R152). -/
def execMovToRx (idxImm index delay : Nat) (s : State) : Out :=
  codecTransaction (.movToRx idxImm index delay) (encodeMovToRx idxImm index delay)
    (fun _ => renderMovToRx idxImm index) s

/-- R153. -/
def renderMovFromRx (idxImm index : Nat) : Rendering :=
  { opcode := "mov"
    operands := ["osr", "rxfifo[" ++ slotName idxImm index ++ "]"]
    body := "mov osr, rxfifo[" ++ slotName idxImm index ++ "]" }

/-- `mov_from_rx` (R153). -/
def execMovFromRx (idxImm index delay : Nat) (s : State) : Out :=
  codecTransaction (.movFromRx idxImm index delay) (encodeMovFromRx idxImm index delay)
    (fun _ => renderMovFromRx idxImm index) s

/-- R154. -/
def renderMov (dst op src : Nat) : Rendering :=
  { opcode := "mov"
    operands := [movDstName dst, movOpName op ++ movSrcName src]
    body := "mov " ++ movDstName dst ++ ", " ++ movOpName op ++ movSrcName src }

/-- `mov` (R154). -/
def execMov (dst op src delay : Nat) (s : State) : Out :=
  codecTransaction (.mov dst op src delay) (encodeMov dst op src delay) (fun _ => renderMov dst op src) s

/-- R155. -/
def renderNop : Rendering := { opcode := "nop", operands := [], body := "nop" }

/-- `nop` (R155). -/
def execNop (delay : Nat) (s : State) : Out :=
  codecTransaction (.nop delay) (encodeNop delay) (fun _ => renderNop) s

end Sys2Proof.Machine
end

