-- ==== Sys2Proof/Machine/IrqSet.lean ====
section
/-!
DEFINITION. Classes 110 and 111 (spec/42_classes_fifo_mov_irq_set.md R156, R157): for each form the rendering of
its decoded word and its meaning in this block, one codec transaction. What a unit does on executing the
instruction is out of scope (spec/00_scope.md R6 item 1).
-/

namespace Sys2Proof.Machine

/-- The action word of IRQ (R156): Clear hides Wait. -/
def irqAction (clearBit waitBit : Nat) : String :=
  if clearBit = 1 then "clear" else if waitBit = 1 then "wait" else "set"

/-- R156. -/
def renderIrq (clearBit waitBit index : Nat) : Rendering :=
  { opcode := "irq"
    operands := [irqAction clearBit waitBit, irqIndexName index]
    body := "irq " ++ irqAction clearBit waitBit ++ " " ++ irqIndexName index }

/-- `irq` (R156). -/
def execIrq (clearBit waitBit index delay : Nat) (s : State) : Out :=
  codecTransaction (.irq clearBit waitBit index delay) (encodeIrq clearBit waitBit index delay)
    (fun _ => renderIrq clearBit waitBit index) s

/-- R157. -/
def renderSet (dst data : Nat) : Rendering :=
  { opcode := "set"
    operands := [setDstName dst, dec (data : Nat)]
    body := "set " ++ setDstName dst ++ ", " ++ dec (data : Nat) }

/-- `set` (R157). -/
def execSet (dst data delay : Nat) (s : State) : Out :=
  codecTransaction (.set dst data delay) (encodeSet dst data delay) (fun _ => renderSet dst data) s

end Sys2Proof.Machine
end

