-- ==== Sys2Proof/Machine/JmpWaitInOut.lean ====
section
/-!
DEFINITION. Classes 000 to 011 (spec/41_classes_jmp_wait_in_out.md R120 to R123): for each form the rendering of
its decoded word and its meaning in this block, one codec transaction. What a unit does on executing the
instruction is out of scope (spec/00_scope.md R6 item 1).
-/

namespace Sys2Proof.Machine

/-- R120, with the jump target relative to the origin (R106). A DECODE's origin is an `Origin`, and LIST's is a
`first_instr`, which the invariant keeps below 32: with an address of 5 bits the target is then in -31..31 (R8). -/
def renderJmp (cond addr : Nat) (origin : Nat) : Rendering :=
  let rel := dec ((addr : Int) - (origin : Int))
  { opcode := "jmp"
    operands := [condName cond, rel]
    body := if condName cond = "" then "jmp " ++ rel else "jmp " ++ condName cond ++ ", " ++ rel }

/-- `jmp` (R120). -/
def execJmp (cond addr delay : Nat) (s : State) : Out :=
  codecTransaction (.jmp cond addr delay) (encodeJmp cond addr delay) (renderJmp cond addr) s

/-- The index operand of WAIT: read by R89 for the source `irq`, a plain number otherwise (R121). -/
def waitIndexName (src index : Nat) : String := if src = 2 then irqIndexName index else dec (index : Nat)

/-- R121. -/
def renderWait (pol src index : Nat) : Rendering :=
  { opcode := "wait"
    operands := [dec (pol : Nat), waitSrcName src, waitIndexName src index]
    body := "wait " ++ dec (pol : Nat) ++ " " ++ waitSrcName src ++ " " ++ waitIndexName src index }

/-- `wait` (R121). -/
def execWait (pol src index delay : Nat) (s : State) : Out :=
  codecTransaction (.wait pol src index delay) (encodeWait pol src index delay) (fun _ => renderWait pol src index) s

/-- R122. -/
def renderIn (src count : Nat) : Rendering :=
  { opcode := "in"
    operands := [inSrcName src, dec (bitCount count : Nat)]
    body := "in " ++ inSrcName src ++ ", " ++ dec (bitCount count : Nat) }

/-- `in` (R122). -/
def execIn (src count delay : Nat) (s : State) : Out :=
  codecTransaction (.inp src count delay) (encodeIn src count delay) (fun _ => renderIn src count) s

/-- R123. -/
def renderOut (dst count : Nat) : Rendering :=
  { opcode := "out"
    operands := [outDstName dst, dec (bitCount count : Nat)]
    body := "out " ++ outDstName dst ++ ", " ++ dec (bitCount count : Nat) }

/-- `out` (R123). -/
def execOut (dst count delay : Nat) (s : State) : Out :=
  codecTransaction (.out dst count delay) (encodeOut dst count delay) (fun _ => renderOut dst count) s

end Sys2Proof.Machine
end

