-- ==== Sys2Proof/Machine/Dispatch.lean ====
section
/-!
DEFINITION. The meaning of every instruction form in this block, one arm per constructor of `Instr`.
-/

namespace Sys2Proof.Machine

def exec (i : Instr) (s : State) : Host.Outcome State Fault Refusal :=
  match i with
  | .jmp cond addr delay => Sys2Proof.Machine.execJmp cond addr delay s
  | .wait pol src index delay => Sys2Proof.Machine.execWait pol src index delay s
  | .inp src count delay => Sys2Proof.Machine.execIn src count delay s
  | .out dst count delay => Sys2Proof.Machine.execOut dst count delay s
  | .push ifFull block delay => Sys2Proof.Machine.execPush ifFull block delay s
  | .pull ifEmpty block delay => Sys2Proof.Machine.execPull ifEmpty block delay s
  | .movToRx idxImm index delay => Sys2Proof.Machine.execMovToRx idxImm index delay s
  | .movFromRx idxImm index delay => Sys2Proof.Machine.execMovFromRx idxImm index delay s
  | .mov dst op src delay => Sys2Proof.Machine.execMov dst op src delay s
  | .nop delay => Sys2Proof.Machine.execNop delay s
  | .irq clearBit waitBit index delay => Sys2Proof.Machine.execIrq clearBit waitBit index delay s
  | .set dst data delay => Sys2Proof.Machine.execSet dst data delay s

end Sys2Proof.Machine
end

