-- ==== Sys2Proof/Machine/Listing.lean ====
section
/-!
DEFINITION. DECODE as a pure function of a word and an origin (spec/40_codec.md R103, R104), and LIST, the
disassembly of a built unit (spec/43_builder.md R195), which reads a word's text through it.
-/

namespace Sys2Proof.Machine

/-- The rendering of an instruction record against an origin, by its form's rule (R120 to R123, R150 to R157). -/
def render (i : Instr) (origin : Nat) : Rendering :=
  match i with
  | .jmp cond addr _ => renderJmp cond addr origin
  | .wait pol src index _ => renderWait pol src index
  | .inp src count _ => renderIn src count
  | .out dst count _ => renderOut dst count
  | .push ifFull block _ => renderPush ifFull block
  | .pull ifEmpty block _ => renderPull ifEmpty block
  | .movToRx idxImm index _ => renderMovToRx idxImm index
  | .movFromRx idxImm index _ => renderMovFromRx idxImm index
  | .mov dst op src _ => renderMov dst op src
  | .nop _ => renderNop
  | .irq clearBit waitBit index _ => renderIrq clearBit waitBit index
  | .set dst data _ => renderSet dst data

/-- `DECODE(w, origin)` (R103), the origin 0..31 wherever the machine calls it (R8; log entry 9). -/
def decodeMnemonic (w : Word) (origin : Nat) : Mnemonic :=
  mnemonicOf (decodeWord w) (render (decodeWord w) origin) w

/-- The lines of LIST for one index `i` that holds the word `w` (R195, D24). -/
def listLines (o : Offsets) (i : Nat) (w : Word) : List String :=
  (if i = o.start then [".start"] else [])
    ++ (if i = o.wrapBottom then [".wrap_target"] else [])
    ++ [dec (i : Nat) ++ ": 0x" ++ hex4 w ++ " ; " ++ (decodeMnemonic w o.firstInstr).text]
    ++ (if i = o.wrapTop then [".wrap"] else [])

/-- The lines of LIST for a list of indices (R195). -/
def listFrom (b : BlockIdx) (m : Memory) (o : Offsets) (is : List Nat) : Except Fault (List String) :=
  match is with
  | [] => .ok []
  | i :: rest =>
    match m.read i (.unwrittenImem b i) with
    | .error f => .error f
    | .ok w =>
      match listFrom b m o rest with
      | .error f => .error f
      | .ok ls => .ok (listLines o i w ++ ls)

/-- The indices `first_instr .. end`, ascending. -/
def Offsets.indices (o : Offsets) : List Nat := List.range' o.firstInstr (o.endAt + 1 - o.firstInstr)

/-- LIST (R195): no state changes, no error is raised; an unbuilt unit answers the empty list. -/
def list (u : Nat) (s : State) : Reply :=
  match s.activeBlock with
  | none => .done s (.lines [])
  | some b =>
    if h : u < Config.numUnits then
      if s.isFinalized b then
        match (s.desc b ⟨u, h⟩).finalOffsets with
        | none => .done s (.lines [])
        | some o =>
          match listFrom b (s.block b).imem o o.indices with
          | .error f => .stuck f
          | .ok ls => .done s (.lines ls)
      else .done s (.lines [])
    else .done s (.lines [])

end Sys2Proof.Machine
end

