-- ==== Sys2Proof/Machine/Serve.lean ====
section
/-!
DEFINITION. Which operation serves which request, and which of them the test of `status` guards
(spec/00_scope.md R10; spec/43_builder.md R180, R181; log entry 8).
-/

namespace Sys2Proof.Machine

/-- Serve one accepted request. The codec's two operations run the meaning of their instruction; SESSION_START is
accepted whatever the status (R250); the rest are the calculator's, behind the test of `status` (R181). -/
def serve (q : Request) (s : State) : Host.Outcome State Fault Refusal :=
  match q with
  | .encode i => exec i s
  | .decode w _ => exec (decodeWord w) s
  | .sessionStart => .next s.sessionStart
  | .selectBlock b => calculator (selectBlock b) s
  | .selectUnit u => calculator (selectUnit u) s
  | .markStart => calculator markStart s
  | .markWrapBottom => calculator markWrapBottom s
  | .markWrapTop => calculator markWrapTop s
  | .markEnd => calculator markEnd s
  | .emit w => calculator (emit w) s
  | .label n => calculator (label n) s
  | .configure => calculator configure s
  | .finalize => calculator finalize s
  | .enable m => calculator (enable m) s
  | .list u => calculator (list u) s
  | .concurrent => .refused .secondRequester

end Sys2Proof.Machine
end

