-- ==== Sys2Proof/Machine/Step.lean ====
section
/-!
DEFINITION. One step of the block: the next request of the stream, served whole (spec/00_scope.md R10, R11;
spec/20_memory.md R58).
-/

namespace Sys2Proof.Machine

/-- One step: the next request is taken off the stream and served. With no request waiting nothing changes (R10: the
block acts on requests only; log entry 2). -/
def step (s : State) : Host.Outcome State Fault Refusal :=
  match s.requests with
  | [] => .next s
  | q :: rest => serve q (s.accept q rest)

/-- The state with one instruction word where the next step takes its instruction from: the block fetches nothing
itself (R61), so this puts DECODE of that word, against origin 0, at the head of the request stream. Log entry 5. -/
def State.withFetchWord (s : State) (nbits w : Nat) : State :=
  { s with requests := .decode (BitVec.ofNat 16 (mask nbits w)) 0 :: s.requests }

end Sys2Proof.Machine
end

