-- ==== Sys2Proof/Safety.lean ====
section
/-!
DEFINITION. The terms that claims about the machine use: the invariant of every reachable state (spec/10_state.md
R37 with what R28, R29, R31, R32 and spec/43_builder.md R199 add to it), the parts of R20's state that a claim
leaves unchanged, and the shape of an answered request.
-/

namespace Sys2Proof.Machine

/-! ## The invariant -/

/-- R37 item 2 for one selected descriptor of a block whose cursor is `c`. -/
abbrev Offsets.Ordered (o : Offsets) (c : Nat) : Prop :=
  (o.firstInstr ≤ o.start ∧ o.start ≤ c ∧ o.start < 32) ∧
  (o.firstInstr ≤ o.wrapBottom ∧ o.wrapBottom ≤ c ∧ o.wrapBottom < 32) ∧
  (o.firstInstr ≤ o.wrapTop ∧ o.wrapTop ≤ c ∧ o.wrapTop < 32) ∧
  (o.firstInstr ≤ o.endAt ∧ o.endAt ≤ c ∧ o.endAt < 32)

/-- What FINALIZE has checked of a descriptor it finished (R192): the loop's ends in order, no offset at or past the
word count. -/
abbrev Offsets.Loaded (o : Offsets) (c : Nat) : Prop :=
  o.wrapBottom ≤ o.wrapTop ∧ o.start < c ∧ o.wrapBottom < c ∧ o.wrapTop < c ∧ o.endAt < c

/-- A descriptor of a block with cursor `c` that is finalized or not: ordered offsets; state `FINALIZED` exactly in a
finalized block (R28); and then loaded. -/
def Descriptor.sound (d : Descriptor) (c : Nat) (finalized : Bool) : Bool :=
  match d with
  | .unselected => true
  | .selected phase o =>
    decide (o.Ordered c) && (decide (phase = .finalized) == finalized)
      && (!finalized || decide (o.Loaded c))

/-- The invariant of one block index: the cursor in range (R37 item 1), every descriptor sound (item 2, R28, R192),
the image in canonical form and written exactly below the cursor once finalized (item 4), and only units with a
finalized program enabled (R32, R193). -/
abbrev Block.Inv (k : Block) : Prop :=
  k.cursor ≤ 32 ∧
  (∀ u : UnitIdx, (k.descOf u).sound k.cursor k.finalized = true) ∧
  k.imem.wf = true ∧
  (∀ i : Fin 32, (k.imem.lookup i).isSome = (k.finalized && decide (i.val < k.cursor))) ∧
  (∀ u : UnitIdx, k.enabled.getLsbD u = true → (k.descOf u).finalOffsets.isSome = true)

/-- The staging buffer and its owner (R37 item 3, R199): the owner has emitted, its cells are written, and an
unfinalized block that has emitted is the owner. -/
abbrev State.BufferInv (s : State) : Prop :=
  s.buf.wf = true ∧
  (∀ b : BlockIdx, s.bufOwner = some b →
    0 < s.cursor b ∧ ∀ i : Fin 32, i.val < s.cursor b → (s.buf.lookup i).isSome = true) ∧
  (∀ b : BlockIdx, s.isFinalized b = false → 0 < s.cursor b → s.bufOwner = some b)

/-- The invariant of the machine. Beside the blocks and the buffer: a selected unit belongs to a selected block and
has a program there (R184), the status never carries `SESSION_ABORTED` (R222), and no DECODE is left over between
requests. -/
abbrev State.Inv (s : State) : Prop :=
  (∀ b : BlockIdx, (s.block b).Inv) ∧
  s.BufferInv ∧
  (∀ u : UnitIdx, s.activeUnit = some u →
    ∃ b : BlockIdx, s.activeBlock = some b ∧ (s.desc b u).isSelected = true) ∧
  s.status ≠ .aborted .sessionAborted ∧
  s.decoding = none

/-! ## Frames and answers -/

/-- Every piece of R20's state but `status` is the same. -/
abbrev SameBuild (s t : State) : Prop :=
  t.activeBlock = s.activeBlock ∧ t.activeUnit = s.activeUnit ∧ t.blocks = s.blocks ∧ t.buf = s.buf ∧
  t.bufOwner = s.bufOwner

/-- The state `s` with its request answered by `r` and the stream moved on to `rest`, nothing else changed. -/
abbrev State.answered (s : State) (rest : List Request) (r : Response) : State :=
  { s with requests := rest, decoding := none, responses := s.responses ++ [r] }

/-- The state `s` after its request has raised `e` (R222, R223): the status and the answer, nothing else. -/
abbrev State.raised (s : State) (rest : List Request) (e : ErrorCode) : State :=
  { s with
    status := .aborted e, requests := rest, decoding := none, responses := s.responses ++ [.error e] }

/-- The delay suffix of a word (R107), read from its bits 12:8. -/
def suffixOf (w : Word) : String :=
  if (w.extractLsb' 8 5).toNat = 0 then "" else " [" ++ Nat.repr (w.extractLsb' 8 5).toNat ++ "]"

/-- The record of R103 for the word `w`, given the form's fields, opcode, operand names and body text: class and
delay from bits 15:13 and 12:8 (R105), the text body and suffix (R108). -/
def recordOf (w : Word) (fields : Instr) (opcode : String) (operands : List String) (body : String) : Mnemonic :=
  { word := w
    cls := w.extractLsb' 13 3
    delay := w.extractLsb' 8 5
    form := fields.form
    fields := fields
    opcode := opcode
    operands := operands
    delaySuffix := suffixOf w
    text := body ++ suffixOf w }

/-- What `RequireUnit()` (R182) makes of a request in the state `s`: the error it raises, or `k` of the active block,
the active unit and the phase and offsets of its descriptor. -/
def State.forUnit (s : State) (rest : List Request) (k : BlockIdx → UnitIdx → Phase → Offsets → State) : State :=
  match s.activeBlock with
  | none => s.raised rest .noBlockSelected
  | some b =>
    if s.isFinalized b = true then s.raised rest .blockFinalized
    else
      match s.activeUnit with
      | none => s.raised rest .noUnitSelected
      | some u =>
        match s.desc b u with
        | .unselected => s.raised rest .noUnitSelected
        | .selected p o => k b u p o

/-- The `n` bits of a word from bit `lo` upwards, as an unsigned number: `w[lo+n-1:lo]` of R12. -/
abbrev bitsAt (w : Word) (lo n : Nat) : Nat := (w.extractLsb' lo n).toNat

/-- The state `s` with its request answered by `r` and one descriptor replaced (R27), nothing else changed. -/
def State.answeredDesc (s : State) (rest : List Request) (r : Response) (b : BlockIdx) (u : UnitIdx)
    (d : Descriptor) : State :=
  { s.answered rest r with blocks := s.blocks.set b { s.block b with desc := (s.block b).desc.set u d } }

/-- Whether another block owns the staging buffer and is not finalized (R189). -/
def State.otherOwner (s : State) (b : BlockIdx) : Prop :=
  ∃ b2, s.bufOwner = some b2 ∧ b2 ≠ b ∧ s.isFinalized b2 = false

/-- The phase of a selected descriptor (R27), none while `UNSELECTED`. -/
def Descriptor.phase? (d : Descriptor) : Option Phase :=
  match d with
  | .unselected => none
  | .selected p _ => some p

/-- Whether a request is an EMIT. -/
def Request.isEmit (q : Request) : Bool :=
  match q with
  | .emit _ => true
  | .encode _ => false
  | .decode _ _ => false
  | .sessionStart => false
  | .selectBlock _ => false
  | .selectUnit _ => false
  | .markStart => false
  | .markWrapBottom => false
  | .markWrapTop => false
  | .markEnd => false
  | .label _ => false
  | .configure => false
  | .finalize => false
  | .enable _ => false
  | .list _ => false
  | .concurrent => false

/-- The requests of the calculator other than SESSION_START (R180). -/
def Request.isCommand (q : Request) : Bool :=
  match q with
  | .encode _ => false
  | .decode _ _ => false
  | .sessionStart => false
  | .selectBlock _ => true
  | .selectUnit _ => true
  | .markStart => true
  | .markWrapBottom => true
  | .markWrapTop => true
  | .markEnd => true
  | .emit _ => true
  | .label _ => true
  | .configure => true
  | .finalize => true
  | .enable _ => true
  | .list _ => true
  | .concurrent => false

/-- The requests that begin with `RequireUnit()` (R182): the markers, EMIT and CONFIGURE. -/
def Request.needsUnit (q : Request) : Bool :=
  match q with
  | .markStart => true
  | .markWrapBottom => true
  | .markWrapTop => true
  | .markEnd => true
  | .emit _ => true
  | .configure => true
  | .encode _ => false
  | .decode _ _ => false
  | .sessionStart => false
  | .selectBlock _ => false
  | .selectUnit _ => false
  | .label _ => false
  | .finalize => false
  | .enable _ => false
  | .list _ => false
  | .concurrent => false

/-- A run of `n` steps from `s` (the host's `Host.Core.run` of this machine). -/
abbrev runFrom (n : Nat) (s : State) : Out := Host.Core.run Sys2Proof.core n s

end Sys2Proof.Machine
end

