-- ==== Sys2Proof/Certificates/Slice0/Obligations.lean ====
section
/-!
DEFINITION. The statements about the machine, from the numbered rules of spec/. Each docstring names the rules it
formalises; OBLIGATIONS.json lists them. Most rules of this spec carry a mark of the spec's own (a decision D<n> of
spec/92_eei_decisions.md, general knowledge G<n> of spec/93_implementation_defined.md, or "derived"): the docstring
names it, and the statement is then listed as derived. A choice of this model is named by its log entry.
-/

open Sys2Proof Sys2Proof.Machine

/-! ## The codec -/

/-- R110 items 1 to 3 (derived in the spec): the record of an encoded record is that record with every operand masked
to its field, so a well-formed record comes back as it is. A MOV whose masked operands are the no-op pattern is
`nop`: item 1's exception read up to masking (DEDUCED, log entry 13). -/
def Obligations.DecodeOfEncodeIsTheMaskedRecord : Prop :=
  (∀ i : Instr, decodeWord (encode i) = i.masked) ∧
  (∀ i : Instr, i.WellFormed → decodeWord (encode i) = i)

/-- R110 item 4 (derived in the spec; the ignored bits are its decision D19): ENCODE after DECODE clears exactly the
ignored bits of the word. -/
def Obligations.EncodeOfDecodeClearsTheIgnoredBits : Prop :=
  ∀ w : Word, encode (decodeWord w) = w &&& ~~~ ignoredMask (formOf w)

/-- R91 (the field values 2, 0, 2 are general knowledge, G24): the MOV word with Destination 2, Operation 0 and
Source 2, with any delay, is the canonical no-op, with bit pattern `0xA042 | (delay << 8)`. -/
def Obligations.NopIsTheMovOfYToY : Prop :=
  ∀ delay : Nat,
    encode (.mov 2 0 2 delay) = 0xA042 ||| (BitVec.ofNat 16 (delay % 32) <<< 8) ∧
    encode (.nop delay) = encode (.mov 2 0 2 delay) ∧
    decodeWord (encode (.mov 2 0 2 delay)) = .nop (delay % 32)

/-- R92 and R96 (derived in the spec): the form a decoder selects is that of the first row of the opcode map that the
word matches, and the only rows that overlap are `nop` and `mov`. -/
def Obligations.OpcodeMapGivesTheForm : Prop :=
  ∀ w : Word,
    (mapRow w).map OpcodeRow.form = some (formOf w) ∧
    (∀ r ∈ opcodeMap, w &&& r.mask = r.bits → r.form = formOf w ∨ (r.form = .mov ∧ formOf w = .nop))

/-- R93, R103 (the record's fields are the spec's decision D17): every word decodes, to a record of the word's form
whose operands and delay are all within their fields. -/
def Obligations.EveryWordDecodesToAWellFormedRecord : Prop :=
  ∀ w : Word, (decodeWord w).WellFormed ∧ (decodeWord w).form = formOf w

/-- R94 (the spec's decision D19): ENCODE writes the bits that belong to no field 0; two words that differ only in
them decode to the same record and the same mnemonic but for the word itself; with the table of ignored masks. -/
def Obligations.IgnoredBitsAreWrittenZeroAndNotRead : Prop :=
  (∀ i : Instr, encode i &&& ignoredMask i.form = 0) ∧
  (∀ (w v : Word) (origin : Nat), w &&& ~~~ ignoredMask (formOf w) = v &&& ~~~ ignoredMask (formOf w) →
    decodeWord v = decodeWord w ∧ decodeMnemonic v origin = { decodeMnemonic w origin with word := v }) ∧
  (∀ f : Form, ignoredMask f =
    if f = .push ∨ f = .pull then 0x000F
    else if f = .movToRx ∨ f = .movFromRx then 0x0064
    else if f = .irq then 0x0080 else 0x0000)

/-- R102: every operand and the delay is reduced to its field width before it is placed, and no operand value is
refused. First, the word is that of the reduced record; then each field of the word holds its reduced operand, at the
positions of R72 to R80 (all but the delay's are general knowledge in the spec, G6 to G13); last, ENCODE of any record,
its operands in range or not, is answered with its word and nothing else changes. That an aborted session answers too
is this model's reading (DEDUCED, log entry 8). -/
def Obligations.EncodeMasksEveryOperand : Prop :=
  (∀ c a d, encode (.jmp c a d) = encode (.jmp (c % 8) (a % 32) (d % 32))) ∧
  (∀ p s i d, encode (.wait p s i d) = encode (.wait (p % 2) (s % 4) (i % 32) (d % 32))) ∧
  (∀ s n d, encode (.inp s n d) = encode (.inp (s % 8) (n % 32) (d % 32))) ∧
  (∀ t n d, encode (.out t n d) = encode (.out (t % 8) (n % 32) (d % 32))) ∧
  (∀ f b d, encode (.push f b d) = encode (.push (f % 2) (b % 2) (d % 32))) ∧
  (∀ f b d, encode (.pull f b d) = encode (.pull (f % 2) (b % 2) (d % 32))) ∧
  (∀ k i d, encode (.movToRx k i d) = encode (.movToRx (k % 2) (i % 4) (d % 32))) ∧
  (∀ k i d, encode (.movFromRx k i d) = encode (.movFromRx (k % 2) (i % 4) (d % 32))) ∧
  (∀ t o s d, encode (.mov t o s d) = encode (.mov (t % 8) (o % 4) (s % 8) (d % 32))) ∧
  (∀ d, encode (.nop d) = encode (.nop (d % 32))) ∧
  (∀ c w i d, encode (.irq c w i d) = encode (.irq (c % 2) (w % 2) (i % 32) (d % 32))) ∧
  (∀ t v d, encode (.set t v d) = encode (.set (t % 8) (v % 32) (d % 32))) ∧
  (∀ i : Instr, bitsAt (encode i) 8 5 = i.delay % 32) ∧
  (∀ c a d, let w := encode (.jmp c a d)
    bitsAt w 5 3 = c % 8 ∧ bitsAt w 0 5 = a % 32) ∧
  (∀ p s i d, let w := encode (.wait p s i d)
    bitsAt w 7 1 = p % 2 ∧ bitsAt w 5 2 = s % 4 ∧ bitsAt w 0 5 = i % 32) ∧
  (∀ s n d, let w := encode (.inp s n d)
    bitsAt w 5 3 = s % 8 ∧ bitsAt w 0 5 = n % 32) ∧
  (∀ t n d, let w := encode (.out t n d)
    bitsAt w 5 3 = t % 8 ∧ bitsAt w 0 5 = n % 32) ∧
  (∀ f b d, let w := encode (.push f b d)
    bitsAt w 6 1 = f % 2 ∧ bitsAt w 5 1 = b % 2) ∧
  (∀ f b d, let w := encode (.pull f b d)
    bitsAt w 6 1 = f % 2 ∧ bitsAt w 5 1 = b % 2) ∧
  (∀ k i d, let w := encode (.movToRx k i d)
    bitsAt w 3 1 = k % 2 ∧ bitsAt w 0 2 = i % 4) ∧
  (∀ k i d, let w := encode (.movFromRx k i d)
    bitsAt w 3 1 = k % 2 ∧ bitsAt w 0 2 = i % 4) ∧
  (∀ t o s d, let w := encode (.mov t o s d)
    bitsAt w 5 3 = t % 8 ∧ bitsAt w 3 2 = o % 4 ∧ bitsAt w 0 3 = s % 8) ∧
  (∀ c w i d, let v := encode (.irq c w i d)
    bitsAt v 6 1 = c % 2 ∧ bitsAt v 5 1 = w % 2 ∧ bitsAt v 0 5 = i % 32) ∧
  (∀ t v d, let w := encode (.set t v d)
    bitsAt w 5 3 = t % 8 ∧ bitsAt w 0 5 = v % 32) ∧
  (∀ (s : State) (i : Instr) (rest : List Request), s.requests = .encode i :: rest →
    step s = .next (s.answered rest (.word (encode i))))

/-- A few words written out from the encodings of R73 to R80, with the records they stand for. -/
def Obligations.WrittenOutWordsDecodeAsTheSpecSays : Prop :=
  decodeWord 0b0000011111100100#16 = .jmp 7 4 7 ∧
  decodeWord 0b0010000011010011#16 = .wait 1 2 19 0 ∧
  decodeWord 0b0100000001101000#16 = .inp 3 8 0 ∧
  decodeWord 0b0111111101000100#16 = .out 2 4 31 ∧
  decodeWord 0b1000001101000000#16 = .push 1 0 3 ∧
  decodeWord 0b1000000010100000#16 = .pull 0 1 0 ∧
  decodeWord 0b1000000000011010#16 = .movToRx 1 2 0 ∧
  decodeWord 0b1000010110011011#16 = .movFromRx 1 3 5 ∧
  decodeWord 0b1010000010101011#16 = .mov 5 1 3 0 ∧
  decodeWord 0b1011111101000010#16 = .nop 31 ∧
  decodeWord 0b1100000000110001#16 = .irq 0 1 17 0 ∧
  decodeWord 0b1110100000100101#16 = .set 1 5 8

/-- R100, R103: a step whose request is a codec operation is the meaning of the instruction: of the record given, for
ENCODE; of the record the word decodes to, which is well-formed (the record is the spec's decision D17), for DECODE.
The step adds that the request leaves the stream and, for DECODE, that the word and the origin are at hand while the
meaning runs. What is this model's and no rule of the spec: the request stream and that one step serves its head
(DESIGN CHOICE, log entry 2), the latch `decoding` (DESIGN CHOICE, log entry 3), that an instruction's meaning is its
codec transaction (DEDUCED, log entry 6), and that both clauses hold in an aborted session too (DEDUCED, log entry 8).
The last clause is wholly the model's choice: `withFetchWord` places a DECODE of its word against origin 0 at the head
of the stream (DESIGN CHOICE, log entry 5). -/
def Obligations.StepRunsTheDecodedInstruction : Prop :=
  (∀ (s : State) (w : Word) (origin : Origin) (rest : List Request), s.requests = .decode w origin :: rest →
    (decodeWord w).WellFormed ∧
    step s = exec (decodeWord w) { s with requests := rest, decoding := some ⟨w, origin⟩ }) ∧
  (∀ (s : State) (i : Instr) (rest : List Request), s.requests = .encode i :: rest →
    step s = exec i { s with requests := rest, decoding := none }) ∧
  (∀ (s : State) (n : Nat),
    step (s.withFetchWord 16 n) =
      exec (decodeWord (BitVec.ofNat 16 n)) { s with decoding := some ⟨BitVec.ofNat 16 n, 0⟩ })

/-- R103, R104, R105, R107: DECODE answers a record for every word and origin and changes nothing else; the record holds
the word, its class and delay from bits 15:13 and 12:8, its form, fields and delay suffix, and the origin matters only
to `jmp`. The entries word, cls, delay, form and fields are the spec's decision D17; that an aborted session answers
too is this model's reading (DEDUCED, log entry 8). -/
def Obligations.DecodeIsTotalAndReadsClassAndDelayAlike : Prop :=
  (∀ (s : State) (w : Word) (origin : Origin) (rest : List Request), s.requests = .decode w origin :: rest →
    step s = .next (s.answered rest (.mnemonic (decodeMnemonic w origin)))) ∧
  (∀ (w : Word) (origin : Nat),
    (decodeMnemonic w origin).word = w ∧
    (decodeMnemonic w origin).cls = w.extractLsb' 13 3 ∧
    (decodeMnemonic w origin).delay = w.extractLsb' 8 5 ∧
    (decodeMnemonic w origin).form = formOf w ∧
    (decodeMnemonic w origin).fields = decodeWord w ∧
    (decodeMnemonic w origin).delaySuffix = suffixOf w) ∧
  (∀ (w : Word) (o1 o2 : Nat), formOf w ≠ .jmp → decodeMnemonic w o1 = decodeMnemonic w o2)

/-- R112: no codec operation is refused, raises an error or has a side effect: its request is answered without an
error code and nothing else changes, whatever the status. That this holds in an aborted session is this model's
reading (DEDUCED, log entry 8). -/
def Obligations.CodecHasNoErrorsAndNoSideEffects : Prop :=
  ∀ (s : State) (q : Request) (rest : List Request), s.requests = q :: rest →
    ((∃ i, q = .encode i) ∨ (∃ w origin, q = .decode w origin)) →
    ∃ r, step s = .next (s.answered rest r) ∧ r.code = 0

/-! ## The twelve forms: ENCODE of any record and DECODE of any word of the form, with nothing else changed

They hold whatever the status. That a step serves a DECODE in an aborted session is this model's reading of R112
against R181 (DEDUCED, log entry 8). -/

/-- R120, with the delay suffix of R107 (its text and fields are marked D17, D20, G6 in the spec). -/
def Obligations.JmpEncodesAndDecodes : Prop :=
  (∀ (cond addr delay : Nat) (s : State), s.decoding = none →
    exec (.jmp cond addr delay) s = .next (s.answered s.requests (.word (BitVec.ofNat 16
      (0b000 * 2 ^ 13 + delay % 32 * 2 ^ 8 + cond % 8 * 2 ^ 5 + addr % 32))))) ∧
  (∀ (w : Word) (origin : Origin) (s : State) (rest : List Request), s.requests = .decode w origin :: rest →
    w.extractLsb' 13 3 = 0b000 →
    let cond := (w.extractLsb' 5 3).toNat
    let addr := (w.extractLsb' 0 5).toNat
    let i := Instr.jmp cond addr (w.extractLsb' 8 5).toNat
    let c := ["", "!x", "x--", "!y", "y--", "x!=y", "pin", "!osre"].getD cond ""
    let rel := dec ((addr : Int) - (origin.val : Int))
    let t := s.answered rest (.mnemonic (recordOf w i "jmp" [c, rel]
      (if c = "" then "jmp " ++ rel else "jmp " ++ c ++ ", " ++ rel)))
    exec i { s with requests := rest, decoding := some ⟨w, origin⟩ } = .next t ∧ step s = .next t)

/-- R121, with the IRQ index of R89 (its text and fields are marked D17, G7, G15, G22 in the spec). -/
def Obligations.WaitEncodesAndDecodes : Prop :=
  (∀ (pol src index delay : Nat) (s : State), s.decoding = none →
    exec (.wait pol src index delay) s = .next (s.answered s.requests (.word (BitVec.ofNat 16
      (0b001 * 2 ^ 13 + delay % 32 * 2 ^ 8 + pol % 2 * 2 ^ 7 + src % 4 * 2 ^ 5 + index % 32))))) ∧
  (∀ (w : Word) (origin : Origin) (s : State) (rest : List Request), s.requests = .decode w origin :: rest →
    w.extractLsb' 13 3 = 0b001 →
    let pol := (w.extractLsb' 7 1).toNat
    let src := (w.extractLsb' 5 2).toNat
    let index := (w.extractLsb' 0 5).toNat
    let i := Instr.wait pol src index (w.extractLsb' 8 5).toNat
    let n := Nat.repr (w.extractLsb' 0 3).toNat
    let ix := if src = 2 then [n, "prev " ++ n, n ++ " rel", "next " ++ n].getD (w.extractLsb' 3 2).toNat ""
      else Nat.repr index
    let srcName := ["gpio", "pin", "irq", "jmppin"].getD src ""
    let t := s.answered rest (.mnemonic (recordOf w i "wait" [Nat.repr pol, srcName, ix]
      ("wait " ++ Nat.repr pol ++ " " ++ srcName ++ " " ++ ix)))
    exec i { s with requests := rest, decoding := some ⟨w, origin⟩ } = .next t ∧ step s = .next t)

/-- R122 (its text and fields are marked D17, D18, D30, G8, G16, G23 in the spec). -/
def Obligations.InEncodesAndDecodes : Prop :=
  (∀ (src count delay : Nat) (s : State), s.decoding = none →
    exec (.inp src count delay) s = .next (s.answered s.requests (.word (BitVec.ofNat 16
      (0b010 * 2 ^ 13 + delay % 32 * 2 ^ 8 + src % 8 * 2 ^ 5 + count % 32))))) ∧
  (∀ (w : Word) (origin : Origin) (s : State) (rest : List Request), s.requests = .decode w origin :: rest →
    w.extractLsb' 13 3 = 0b010 →
    let src := (w.extractLsb' 5 3).toNat
    let count := (w.extractLsb' 0 5).toNat
    let i := Instr.inp src count (w.extractLsb' 8 5).toNat
    let srcName := ["pins", "x", "y", "null", "reserved", "reserved", "isr", "osr"].getD src ""
    let n := Nat.repr (if count = 0 then 32 else count)
    let t := s.answered rest (.mnemonic (recordOf w i "in" [srcName, n] ("in " ++ srcName ++ ", " ++ n)))
    exec i { s with requests := rest, decoding := some ⟨w, origin⟩ } = .next t ∧ step s = .next t)

/-- R123 (its text and fields are marked D17, D30, G9, G17, G23 in the spec). -/
def Obligations.OutEncodesAndDecodes : Prop :=
  (∀ (dst count delay : Nat) (s : State), s.decoding = none →
    exec (.out dst count delay) s = .next (s.answered s.requests (.word (BitVec.ofNat 16
      (0b011 * 2 ^ 13 + delay % 32 * 2 ^ 8 + dst % 8 * 2 ^ 5 + count % 32))))) ∧
  (∀ (w : Word) (origin : Origin) (s : State) (rest : List Request), s.requests = .decode w origin :: rest →
    w.extractLsb' 13 3 = 0b011 →
    let dst := (w.extractLsb' 5 3).toNat
    let count := (w.extractLsb' 0 5).toNat
    let i := Instr.out dst count (w.extractLsb' 8 5).toNat
    let dstName := ["pins", "x", "y", "null", "pindirs", "pc", "isr", "exec"].getD dst ""
    let n := Nat.repr (if count = 0 then 32 else count)
    let t := s.answered rest (.mnemonic (recordOf w i "out" [dstName, n] ("out " ++ dstName ++ ", " ++ n)))
    exec i { s with requests := rest, decoding := some ⟨w, origin⟩ } = .next t ∧ step s = .next t)

/-- R150 (its text and fields are marked D17, G10 in the spec). -/
def Obligations.PushEncodesAndDecodes : Prop :=
  (∀ (ifFull block delay : Nat) (s : State), s.decoding = none →
    exec (.push ifFull block delay) s = .next (s.answered s.requests (.word (BitVec.ofNat 16
      (0b100 * 2 ^ 13 + delay % 32 * 2 ^ 8 + ifFull % 2 * 2 ^ 6 + block % 2 * 2 ^ 5))))) ∧
  (∀ (w : Word) (origin : Origin) (s : State) (rest : List Request), s.requests = .decode w origin :: rest →
    w.extractLsb' 13 3 = 0b100 → w.extractLsb' 4 1 = 0 → w.extractLsb' 7 1 = 0 →
    let ifFull := (w.extractLsb' 6 1).toNat
    let block := (w.extractLsb' 5 1).toNat
    let i := Instr.push ifFull block (w.extractLsb' 8 5).toNat
    let t := s.answered rest (.mnemonic (recordOf w i "push"
      ((if ifFull = 1 then ["iffull"] else []) ++ (if block = 1 then ["block"] else ["noblock"]))
      ("push" ++ (if ifFull = 1 then " iffull" else "") ++ (if block = 1 then " block" else " noblock"))))
    exec i { s with requests := rest, decoding := some ⟨w, origin⟩ } = .next t ∧ step s = .next t)

/-- R151 (its text and fields are marked D17, G10 in the spec). -/
def Obligations.PullEncodesAndDecodes : Prop :=
  (∀ (ifEmpty block delay : Nat) (s : State), s.decoding = none →
    exec (.pull ifEmpty block delay) s = .next (s.answered s.requests (.word (BitVec.ofNat 16
      (0b100 * 2 ^ 13 + delay % 32 * 2 ^ 8 + 2 ^ 7 + ifEmpty % 2 * 2 ^ 6 + block % 2 * 2 ^ 5))))) ∧
  (∀ (w : Word) (origin : Origin) (s : State) (rest : List Request), s.requests = .decode w origin :: rest →
    w.extractLsb' 13 3 = 0b100 → w.extractLsb' 4 1 = 0 → w.extractLsb' 7 1 = 1 →
    let ifEmpty := (w.extractLsb' 6 1).toNat
    let block := (w.extractLsb' 5 1).toNat
    let i := Instr.pull ifEmpty block (w.extractLsb' 8 5).toNat
    let t := s.answered rest (.mnemonic (recordOf w i "pull"
      ((if ifEmpty = 1 then ["ifempty"] else []) ++ (if block = 1 then ["block"] else ["noblock"]))
      ("pull" ++ (if ifEmpty = 1 then " ifempty" else "") ++ (if block = 1 then " block" else " noblock"))))
    exec i { s with requests := rest, decoding := some ⟨w, origin⟩ } = .next t ∧ step s = .next t)

/-- R152 (its text and fields are marked D17, G10 in the spec). -/
def Obligations.MovToRxEncodesAndDecodes : Prop :=
  (∀ (idxImm index delay : Nat) (s : State), s.decoding = none →
    exec (.movToRx idxImm index delay) s = .next (s.answered s.requests (.word (BitVec.ofNat 16
      (0b100 * 2 ^ 13 + delay % 32 * 2 ^ 8 + 2 ^ 4 + idxImm % 2 * 2 ^ 3 + index % 4))))) ∧
  (∀ (w : Word) (origin : Origin) (s : State) (rest : List Request), s.requests = .decode w origin :: rest →
    w.extractLsb' 13 3 = 0b100 → w.extractLsb' 4 1 = 1 → w.extractLsb' 7 1 = 0 →
    let idxImm := (w.extractLsb' 3 1).toNat
    let index := (w.extractLsb' 0 2).toNat
    let i := Instr.movToRx idxImm index (w.extractLsb' 8 5).toNat
    let ix := if idxImm = 0 then "y" else Nat.repr index
    let t := s.answered rest (.mnemonic (recordOf w i "mov" ["rxfifo[" ++ ix ++ "]", "isr"]
      ("mov rxfifo[" ++ ix ++ "], isr")))
    exec i { s with requests := rest, decoding := some ⟨w, origin⟩ } = .next t ∧ step s = .next t)

/-- R153 (its text and fields are marked D17, G10 in the spec). -/
def Obligations.MovFromRxEncodesAndDecodes : Prop :=
  (∀ (idxImm index delay : Nat) (s : State), s.decoding = none →
    exec (.movFromRx idxImm index delay) s = .next (s.answered s.requests (.word (BitVec.ofNat 16
      (0b100 * 2 ^ 13 + delay % 32 * 2 ^ 8 + 2 ^ 7 + 2 ^ 4 + idxImm % 2 * 2 ^ 3 + index % 4))))) ∧
  (∀ (w : Word) (origin : Origin) (s : State) (rest : List Request), s.requests = .decode w origin :: rest →
    w.extractLsb' 13 3 = 0b100 → w.extractLsb' 4 1 = 1 → w.extractLsb' 7 1 = 1 →
    let idxImm := (w.extractLsb' 3 1).toNat
    let index := (w.extractLsb' 0 2).toNat
    let i := Instr.movFromRx idxImm index (w.extractLsb' 8 5).toNat
    let ix := if idxImm = 0 then "y" else Nat.repr index
    let t := s.answered rest (.mnemonic (recordOf w i "mov" ["osr", "rxfifo[" ++ ix ++ "]"]
      ("mov osr, rxfifo[" ++ ix ++ "]")))
    exec i { s with requests := rest, decoding := some ⟨w, origin⟩ } = .next t ∧ step s = .next t)

/-- R154 (its text and fields are marked D17, D18, G11, G18 to G20 in the spec). -/
def Obligations.MovEncodesAndDecodes : Prop :=
  (∀ (dst op src delay : Nat) (s : State), s.decoding = none →
    exec (.mov dst op src delay) s = .next (s.answered s.requests (.word (BitVec.ofNat 16
      (0b101 * 2 ^ 13 + delay % 32 * 2 ^ 8 + dst % 8 * 2 ^ 5 + op % 4 * 2 ^ 3 + src % 8))))) ∧
  (∀ (w : Word) (origin : Origin) (s : State) (rest : List Request), s.requests = .decode w origin :: rest →
    w.extractLsb' 13 3 = 0b101 → w.extractLsb' 0 8 ≠ 0x42 →
    let dst := (w.extractLsb' 5 3).toNat
    let op := (w.extractLsb' 3 2).toNat
    let src := (w.extractLsb' 0 3).toNat
    let i := Instr.mov dst op src (w.extractLsb' 8 5).toNat
    let d := ["pins", "x", "y", "pindirs", "exec", "pc", "isr", "osr"].getD dst ""
    let p := ["", "!", "::", "???"].getD op ""
    let n := ["pins", "x", "y", "null", "reserved", "status", "isr", "osr"].getD src ""
    let t := s.answered rest (.mnemonic (recordOf w i "mov" [d, p ++ n] ("mov " ++ d ++ ", " ++ p ++ n)))
    exec i { s with requests := rest, decoding := some ⟨w, origin⟩ } = .next t ∧ step s = .next t)

/-- R155 (the value `0x42` is marked G24); the word is that of the MOV whose operands are the no-op pattern. -/
def Obligations.NopEncodesAndDecodes : Prop :=
  (∀ delay : Nat, encode (.nop delay) = encode (.mov 2 0 2 delay)) ∧
  (∀ (delay : Nat) (s : State), s.decoding = none →
    exec (.nop delay) s = .next (s.answered s.requests (.word (BitVec.ofNat 16
      (0b101 * 2 ^ 13 + delay % 32 * 2 ^ 8 + 0x42))))) ∧
  (∀ (w : Word) (origin : Origin) (s : State) (rest : List Request), s.requests = .decode w origin :: rest →
    w.extractLsb' 13 3 = 0b101 → w.extractLsb' 0 8 = 0x42 →
    let i := Instr.nop (w.extractLsb' 8 5).toNat
    let t := s.answered rest (.mnemonic (recordOf w i "nop" [] "nop"))
    exec i { s with requests := rest, decoding := some ⟨w, origin⟩ } = .next t ∧ step s = .next t)

/-- R156, with the index of R89 (its text and fields are marked D17, G12, G22 in the spec). -/
def Obligations.IrqEncodesAndDecodes : Prop :=
  (∀ (clearBit waitBit index delay : Nat) (s : State), s.decoding = none →
    exec (.irq clearBit waitBit index delay) s = .next (s.answered s.requests (.word (BitVec.ofNat 16
      (0b110 * 2 ^ 13 + delay % 32 * 2 ^ 8 + clearBit % 2 * 2 ^ 6 + waitBit % 2 * 2 ^ 5 + index % 32))))) ∧
  (∀ (w : Word) (origin : Origin) (s : State) (rest : List Request), s.requests = .decode w origin :: rest →
    w.extractLsb' 13 3 = 0b110 →
    let clearBit := (w.extractLsb' 6 1).toNat
    let waitBit := (w.extractLsb' 5 1).toNat
    let index := (w.extractLsb' 0 5).toNat
    let i := Instr.irq clearBit waitBit index (w.extractLsb' 8 5).toNat
    let a := if clearBit = 1 then "clear" else if waitBit = 1 then "wait" else "set"
    let n := Nat.repr (w.extractLsb' 0 3).toNat
    let ix := [n, "prev " ++ n, n ++ " rel", "next " ++ n].getD (w.extractLsb' 3 2).toNat ""
    let t := s.answered rest (.mnemonic (recordOf w i "irq" [a, ix] ("irq " ++ a ++ " " ++ ix)))
    exec i { s with requests := rest, decoding := some ⟨w, origin⟩ } = .next t ∧ step s = .next t)

/-- R157 (its text and fields are marked D17, D18, G13, G21 in the spec). -/
def Obligations.SetEncodesAndDecodes : Prop :=
  (∀ (dst data delay : Nat) (s : State), s.decoding = none →
    exec (.set dst data delay) s = .next (s.answered s.requests (.word (BitVec.ofNat 16
      (0b111 * 2 ^ 13 + delay % 32 * 2 ^ 8 + dst % 8 * 2 ^ 5 + data % 32))))) ∧
  (∀ (w : Word) (origin : Origin) (s : State) (rest : List Request), s.requests = .decode w origin :: rest →
    w.extractLsb' 13 3 = 0b111 →
    let dst := (w.extractLsb' 5 3).toNat
    let data := (w.extractLsb' 0 5).toNat
    let i := Instr.set dst data (w.extractLsb' 8 5).toNat
    let d := ["pins", "x", "y", "reserved", "pindirs", "reserved", "reserved", "reserved"].getD dst ""
    let t := s.answered rest (.mnemonic (recordOf w i "set" [d, Nat.repr data]
      ("set " ++ d ++ ", " ++ Nat.repr data)))
    exec i { s with requests := rest, decoding := some ⟨w, origin⟩ } = .next t ∧ step s = .next t)

/-! ## Reset, errors, the session -/

/-- R38 and R251 (the spec's decisions D6 and D26): the values at power-on, which are those SESSION_START gives from
any state. -/
def Obligations.ResetHoldsTheSessionStartValues : Prop :=
  (State.reset.activeBlock = none ∧ State.reset.activeUnit = none ∧ State.reset.bufOwner = none ∧
    State.reset.status = .running ∧ (∀ i, State.reset.buf.lookup i = none) ∧
    (∀ b, State.reset.cursor b = 0 ∧ State.reset.isFinalized b = false ∧ (State.reset.block b).enabled = 0 ∧
      (∀ i, (State.reset.block b).imem.lookup i = none) ∧ (∀ u, State.reset.desc b u = .unselected))) ∧
  (∀ (s : State) (rest : List Request), s.requests = .sessionStart :: rest →
    ∃ t, step s = .next t ∧ SameBuild State.reset t ∧ t.status = State.reset.status)

/-- R250 (the spec's decision D6): SESSION_START is accepted in every state, answers `OK`, issues no output and
restores every piece of state; the request stream and the logs of answers and outputs are the model's (log entry 3). -/
def Obligations.SessionStartRestoresEveryPieceOfState : Prop :=
  ∀ (s : State) (rest : List Request), s.requests = .sessionStart :: rest →
    step s = .next { State.reset with
      requests := rest, responses := s.responses ++ [.ok], outputs := s.outputs }

/-- R181 (the spec's decision D11): a calculator request other than SESSION_START in an aborted session answers
`SESSION_ABORTED` and changes no state and issues no output. LIST is among them (DEDUCED, log entry 16). -/
def Obligations.AbortedSessionRefusesEveryCommand : Prop :=
  ∀ (s : State) (q : Request) (rest : List Request) (code : ErrorCode),
    s.requests = q :: rest → q.isCommand = true → s.status = .aborted code →
    step s = .next (s.answered rest (.error .sessionAborted))

/-- R222: the first error of a session sets the status to its code and is the response; from then on every calculator
request is refused, and only SESSION_START changes the status. That ENCODE and DECODE are not refused is this
model's reading (DEDUCED, log entry 8). -/
def Obligations.FirstErrorEndsTheSession : Prop :=
  (∀ (s t : State) (code : ErrorCode), step s = .next t → t.responses = s.responses ++ [.error code] →
    code ≠ .sessionAborted → t.status = .aborted code) ∧
  (∀ (s : State) (q : Request) (rest : List Request) (code : ErrorCode),
    s.requests = q :: rest → q.isCommand = true → s.status = .aborted code →
    ∃ t, step s = .next t ∧ t.responses = s.responses ++ [.error .sessionAborted]) ∧
  (∀ (s t : State) (code : ErrorCode), s.status = .aborted code → step s = .next t →
    s.requests.head? ≠ some .sessionStart → t.status = .aborted code)

/-- R223 (the spec's decision D11): a request that answers an error code changes nothing but the status (and that only
when the session was running), and issues no output. -/
def Obligations.FailingRequestChangesOnlyTheStatus : Prop :=
  ∀ (s t : State) (q : Request) (rest : List Request) (code : ErrorCode),
    s.requests = q :: rest → step s = .next t → t.responses = s.responses ++ [.error code] →
    (s.status = .running ∧ code ≠ .sessionAborted ∧ t = s.raised rest code) ∨
    ((∃ first, s.status = .aborted first) ∧ code = .sessionAborted ∧ t = s.answered rest (.error code))

/-- R221 (the values are the spec's decision D11): 1 to 13 in the table's order, 0 for success, no two alike. -/
def Obligations.ErrorCodesHaveTheTablesValues : Prop :=
  [ErrorCode.blockIndexOutOfRange, .unitIndexOutOfRange, .enableMaskInvalid, .noBlockSelected, .noUnitSelected,
    .blockFinalized, .capacityExceeded, .offsetOutOfRange, .bufferInterleave, .descriptorInvariant,
    .notFinalized, .unitNotBuilt, .sessionAborted].map (fun c => (Response.error c).code) =
    [1, 2, 3, 4, 5, 6, 7, 8, 9, 10, 11, 12, 13] ∧
  Response.ok.code = 0 ∧
  (∀ c d : ErrorCode, c.value = d.value → c = d)

/-- R232 (the spec's decision D27): a second requester's request is refused, and it is the only refusal. That a step
with no request waiting changes nothing is this model's choice (DESIGN CHOICE, log entry 2). -/
def Obligations.OnlyASecondRequesterIsRefused : Prop :=
  (∀ (s : State) (rest : List Request), s.requests = .concurrent :: rest → step s = .refused .secondRequester) ∧
  (∀ s : State, s.requests = [] → step s = .next s) ∧
  (∀ (s : State) (r : Refusal), step s = .refused r → r = .secondRequester ∧ s.requests.head? = some .concurrent)

/-! ## The calculator's commands, in a running session -/

/-- R183 (clearing the unit is the spec's decision D7). -/
def Obligations.SelectBlockSetsTheBlockAndClearsTheUnit : Prop :=
  ∀ (s : State) (n : Nat) (rest : List Request), s.requests = .selectBlock n :: rest → s.status = .running →
    (∀ b : BlockIdx, b.val = n →
      step s = .next { s.answered rest .ok with activeBlock := some b, activeUnit := none }) ∧
    (3 ≤ n → step s = .next (s.raised rest .blockIndexOutOfRange))

/-- R184, its errors in their order (the full block's error and re-selection are the spec's decisions D13 and D9). -/
def Obligations.SelectUnitCapturesTheCursor : Prop :=
  ∀ (s : State) (n : Nat) (rest : List Request), s.requests = .selectUnit n :: rest → s.status = .running →
    (4 ≤ n → step s = .next (s.raised rest .unitIndexOutOfRange)) ∧
    (∀ u : UnitIdx, u.val = n →
      (s.activeBlock = none → step s = .next (s.raised rest .noBlockSelected)) ∧
      (∀ b, s.activeBlock = some b →
        let c := s.cursor b
        step s = .next (
          if s.isFinalized b = true then s.raised rest .blockFinalized
          else if 32 ≤ c then s.raised rest .offsetOutOfRange
          else { s.answeredDesc rest .ok b u (.selected .building ⟨c, c, c, c, c⟩) with activeUnit := some u })))

/-- R182 (the spec's decisions D10 and D12): the checks shared by the markers, EMIT and CONFIGURE, in their order. -/
def Obligations.RequireUnitRaisesItsErrorsInOrder : Prop :=
  ∀ (s : State) (q : Request) (rest : List Request),
    s.requests = q :: rest → q.needsUnit = true → s.status = .running →
    (s.activeBlock = none → step s = .next (s.raised rest .noBlockSelected)) ∧
    (∀ b, s.activeBlock = some b →
      (s.isFinalized b = true → step s = .next (s.raised rest .blockFinalized)) ∧
      (s.isFinalized b = false →
        (s.activeUnit = none → step s = .next (s.raised rest .noUnitSelected)) ∧
        (∀ u, s.activeUnit = some u → s.desc b u = .unselected →
          step s = .next (s.raised rest .noUnitSelected))))

/-- R186, R187: each wrap marker records the cursor in its own offset (MARK_WRAP_TOP in `end` as well), whatever it
held, and changes nothing else; at a full block it raises `OFFSET_OUT_OF_RANGE`; before that, the errors of R182. -/
def Obligations.WrapMarkersRecordTheCursor : Prop :=
  ∀ (s : State) (rest : List Request), s.status = .running →
    (s.requests = .markWrapBottom :: rest → step s = .next (s.forUnit rest fun b u p o =>
      if 32 ≤ s.cursor b then s.raised rest .offsetOutOfRange
      else s.answeredDesc rest .ok b u (.selected p { o with wrapBottom := s.cursor b }))) ∧
    (s.requests = .markWrapTop :: rest → step s = .next (s.forUnit rest fun b u p o =>
      if 32 ≤ s.cursor b then s.raised rest .offsetOutOfRange
      else s.answeredDesc rest .ok b u (.selected p { o with wrapTop := s.cursor b, endAt := s.cursor b })))

/-- R185, R188, the same for MARK_START and MARK_END (the full block's error is the spec's own, D13). -/
def Obligations.StartAndEndMarkersRecordTheCursor : Prop :=
  ∀ (s : State) (rest : List Request), s.status = .running →
    (s.requests = .markStart :: rest → step s = .next (s.forUnit rest fun b u p o =>
      if 32 ≤ s.cursor b then s.raised rest .offsetOutOfRange
      else s.answeredDesc rest .ok b u (.selected p { o with start := s.cursor b }))) ∧
    (s.requests = .markEnd :: rest → step s = .next (s.forUnit rest fun b u p o =>
      if 32 ≤ s.cursor b then s.raised rest .offsetOutOfRange
      else s.answeredDesc rest .ok b u (.selected p { o with endAt := s.cursor b })))

/-- R189: EMIT stores its word at the cursor of the active block and nowhere else, advances that cursor by one and
makes the block the buffer's owner; its errors in their order (the interleaving error and the owner are the spec's
decision D8). -/
def Obligations.EmitStoresOneWordAtTheCursor : Prop :=
  ∀ (s : State) (w : Word) (rest : List Request), s.requests = .emit w :: rest → s.status = .running →
    ∃ t, step s = .next t ∧
      ((∀ b u p o, s.activeBlock = some b → s.isFinalized b = false → s.activeUnit = some u →
          s.desc b u = .selected p o →
          (32 ≤ s.cursor b → t = s.raised rest .capacityExceeded) ∧
          (s.cursor b < 32 → s.otherOwner b → t = s.raised rest .bufferInterleave) ∧
          (s.cursor b < 32 → ¬ s.otherOwner b →
            t = { s.answered rest (.value (s.cursor b)) with
                    buf := t.buf
                    bufOwner := some b
                    blocks := s.blocks.set b { s.block b with cursor := s.cursor b + 1 } } ∧
            ∀ i, t.buf.lookup i = if i = s.cursor b then some w else s.buf.lookup i)) ∧
        ((∀ b u p o, s.activeBlock = some b → s.isFinalized b = false → s.activeUnit = some u →
          s.desc b u ≠ .selected p o) → t = s.forUnit rest fun _ _ _ _ => s))

/-- R190 (that the sum is neither masked nor checked is the spec's decision D16). -/
def Obligations.LabelAnswersTheCursorPlusTheDelta : Prop :=
  ∀ (s : State) (n : Nat) (rest : List Request), s.requests = .label n :: rest → s.status = .running →
    (s.activeBlock = none → step s = .next (s.raised rest .noBlockSelected)) ∧
    (∀ b, s.activeBlock = some b → step s = .next (s.answered rest (.value (s.cursor b + n))))

/-- R191 (the spec's decision D9). -/
def Obligations.ConfigureMovesTheUnitToConfigured : Prop :=
  ∀ (s : State) (rest : List Request), s.requests = .configure :: rest → s.status = .running →
    step s = .next (s.forUnit rest fun b u _ o => s.answeredDesc rest .ok b u (.selected .configured o))

/-- R192: FINALIZE's errors in their order, and, when the checks pass and the cells below the cursor hold the words
`ws`, its whole effect: the outputs, the image, the descriptors, the flag, and nothing else. The checks are the
spec's decisions D10 and D14. -/
def Obligations.FinalizeLoadsTheBlock : Prop :=
  ∀ (s : State) (rest : List Request), s.requests = .finalize :: rest → s.status = .running →
    (s.activeBlock = none → step s = .next (s.raised rest .noBlockSelected)) ∧
    (∀ b, s.activeBlock = some b →
      let n := s.cursor b
      let bad (u : UnitIdx) : Prop := ∃ p o, s.desc b u = .selected p o ∧ p ≠ .finalized ∧
        ¬ (o.firstInstr ≤ o.start ∧ o.wrapBottom ≤ o.wrapTop ∧
           o.start < n ∧ o.wrapBottom < n ∧ o.wrapTop < n ∧ o.endAt < n)
      (s.isFinalized b = true → step s = .next (s.raised rest .blockFinalized)) ∧
      (s.isFinalized b = false →
        ((∃ u, bad u) → step s = .next (s.raised rest .descriptorInvariant)) ∧
        (∀ ws : List Word, (∀ u, ¬ bad u) → ws.length = n → n ≤ 32 →
          (∀ i, i < n → s.buf.lookup i = ws[i]?) →
          ∃ t, step s = .next t ∧
            t.responses = s.responses ++ [.value n] ∧
            t.outputs = s.outputs ++ ws.mapIdx (fun i w => Output.memWrite b i w) ++
              ([0, 1, 2, 3] : List UnitIdx).filterMap (fun u =>
                match s.desc b u with
                | .unselected => none
                | .selected p o => if p = .finalized then none else some (Output.wrapBounds b u o.wrapBottom o.wrapTop)) ∧
            t.requests = rest ∧ t.status = .running ∧ t.activeBlock = s.activeBlock ∧
            t.activeUnit = s.activeUnit ∧ t.buf = s.buf ∧ t.bufOwner = s.bufOwner ∧ t.decoding = none ∧
            (∀ b', b' ≠ b → t.block b' = s.block b') ∧
            t.isFinalized b = true ∧ t.cursor b = n ∧ (t.block b).enabled = (s.block b).enabled ∧
            (∀ i, (t.block b).imem.lookup i = if i < n then ws[i]? else (s.block b).imem.lookup i) ∧
            (∀ u, t.desc b u =
              match s.desc b u with
              | .unselected => .unselected
              | .selected _ o => .selected .finalized o))))

/-- R193, its errors in their order (the checks beyond the mask's range are the spec's decision D15). -/
def Obligations.EnableStartsFinalizedUnits : Prop :=
  ∀ (s : State) (m : Nat) (rest : List Request), s.requests = .enable m :: rest → s.status = .running →
    (m = 0 ∨ 16 ≤ m → step s = .next (s.raised rest .enableMaskInvalid)) ∧
    (0 < m → m < 16 →
      (s.activeBlock = none → step s = .next (s.raised rest .noBlockSelected)) ∧
      (∀ b, s.activeBlock = some b →
        (s.isFinalized b = false → step s = .next (s.raised rest .notFinalized)) ∧
        (s.isFinalized b = true →
          ((∃ u : UnitIdx, m.testBit u = true ∧ ∀ o, s.desc b u ≠ .selected .finalized o) →
            step s = .next (s.raised rest .unitNotBuilt)) ∧
          (∀ o : UnitIdx → Offsets, (∀ u : UnitIdx, m.testBit u = true → s.desc b u = .selected .finalized (o u)) →
            step s = .next { s.answered rest .ok with
              outputs := s.outputs ++ [Output.enable b (BitVec.ofNat 4 m)
                (([0, 1, 2, 3] : List UnitIdx).filterMap fun u : UnitIdx =>
                  if m.testBit u = true then some (u, (o u).start) else none)]
              blocks := s.blocks.set b
                { s.block b with enabled := (s.block b).enabled ||| BitVec.ofNat 4 m } }))))

/-- R195 (the exact text and the empty answers are the spec's decision D24): LIST changes no state and raises nothing;
it is empty for no block, a unit out of range or an unbuilt unit; for a built one whose image holds the words `g i`
it gives the lines in order. -/
def Obligations.ListAnswersTheDisassembly : Prop :=
  ∀ (s : State) (n : Nat) (rest : List Request), s.requests = .list n :: rest → s.status = .running →
    (s.activeBlock = none ∨ 4 ≤ n → step s = .next (s.answered rest (.lines []))) ∧
    (∀ (b : BlockIdx) (u : UnitIdx), s.activeBlock = some b → u.val = n →
      (s.isFinalized b = false ∨ (∀ o, s.desc b u ≠ .selected .finalized o) →
        step s = .next (s.answered rest (.lines []))) ∧
      (∀ (o : Offsets) (g : Nat → Word), s.isFinalized b = true → s.desc b u = .selected .finalized o →
        (∀ i, o.firstInstr ≤ i → i ≤ o.endAt → i < 32 ∧ (s.block b).imem.lookup i = some (g i)) →
        step s = .next (s.answered rest (.lines
          ((List.range' o.firstInstr (o.endAt + 1 - o.firstInstr)).flatMap fun i =>
            (if i = o.start then [".start"] else []) ++
            (if i = o.wrapBottom then [".wrap_target"] else []) ++
            [Nat.repr i ++ ": 0x" ++ hex4 (g i) ++ " ; " ++ (decodeMnemonic (g i) o.firstInstr).text] ++
            (if i = o.wrapTop then [".wrap"] else []))))))

/-- R194: in the layout the rule names for the RP2350, the two bounds land at bits 16:12 and 11:7 of execution-control
bits that leave them clear, and the other bits stay. The layout and the 32 bits of the word are PRESUMED (log
entry 7). -/
def Obligations.WrapBoundsLandInExecctrl : Prop :=
  ∀ (execctrl : BitVec 32) (wrapBottom wrapTop : Nat), wrapBottom < 32 → wrapTop < 32 →
    execctrl.extractLsb' 7 10 = 0 →
    let x := wrapBoundsInto Config.rp2350WrapLayout execctrl wrapBottom wrapTop
    (x.extractLsb' 12 5).toNat = wrapTop ∧ (x.extractLsb' 7 5).toNat = wrapBottom ∧
    x.extractLsb' 17 15 = execctrl.extractLsb' 17 15 ∧ x.extractLsb' 0 7 = execctrl.extractLsb' 0 7

/-! ## What every step keeps -/

/-- The state at power-on meets the invariant (R37, R38). -/
def Obligations.ResetMeetsTheInvariant : Prop := State.reset.Inv

/-- Every step keeps the invariant: R37 items 1 and 2 and the written cells of items 3 and 4 (derived in the spec),
with what R28, R32, R184 and R222 add. -/
def Obligations.StepKeepsTheInvariant : Prop :=
  ∀ s t : State, s.Inv → step s = .next t → t.Inv

/-- R199 (derived in the spec): in a state that meets the invariant no step reads an `UNWRITTEN` cell or an index
outside a memory, so no step faults. -/
def Obligations.InvariantStatesNeverFault : Prop :=
  ∀ (s : State) (f : Fault), s.Inv → step s ≠ .fault f

/-- R199 over runs: whatever requests arrive from power-on on, the block never faults. -/
def Obligations.RunsFromResetNeverFault : Prop :=
  ∀ (n : Nat) (qs : List Request) (f : Fault), runFrom n { State.reset with requests := qs } ≠ .fault f

/-- R24 (derived in the spec): only EMIT moves a cursor, the active block's and by one; SESSION_START apart. -/
def Obligations.OnlyEmitMovesACursor : Prop :=
  ∀ (s t : State) (q : Request) (rest : List Request), s.requests = q :: rest → q ≠ .sessionStart →
    step s = .next t →
    ∀ b, t.cursor b = s.cursor b ∨
      ((∃ w, q = .emit w) ∧ s.activeBlock = some b ∧ t.cursor b = s.cursor b + 1)

/-- R28 (the spec's decision D9): the ways a descriptor's state can change in one step other than SESSION_START. -/
def Obligations.DescriptorsFollowTheStateMachine : Prop :=
  ∀ (s t : State) (q : Request) (rest : List Request), s.Inv → s.requests = q :: rest → q ≠ .sessionStart →
    step s = .next t →
    ∀ (b : BlockIdx) (u : UnitIdx),
      (t.desc b u).phase? = (s.desc b u).phase? ∨
      (q = .selectUnit u.val ∧ s.activeBlock = some b ∧ (s.desc b u).phase? ≠ some .finalized ∧
        (t.desc b u).phase? = some .building) ∨
      (q = .configure ∧ s.activeBlock = some b ∧ s.activeUnit = some u ∧
        (s.desc b u).phase? = some .building ∧ (t.desc b u).phase? = some .configured) ∨
      (q = .finalize ∧ s.activeBlock = some b ∧
        ((s.desc b u).phase? = some .building ∨ (s.desc b u).phase? = some .configured) ∧
        (t.desc b u).phase? = some .finalized)

/-- R27, R185 to R188: a selected descriptor stays selected; apart from SESSION_START and a new SELECT_UNIT of it, its
`first_instr` never changes and each other offset changes only by its own marker, so that one no marker set keeps its
default. -/
def Obligations.OffsetsChangeOnlyByTheirMarkers : Prop :=
  ∀ (s t : State) (q : Request) (rest : List Request), s.requests = q :: rest → q ≠ .sessionStart →
    step s = .next t →
    ∀ (b : BlockIdx) (u : UnitIdx) (p : Phase) (o : Offsets), s.desc b u = .selected p o →
      (q ≠ .selectUnit u.val ∨ s.activeBlock ≠ some b) →
      ∃ p' o', t.desc b u = .selected p' o' ∧ o'.firstInstr = o.firstInstr ∧
        (o'.start = o.start ∨ q = .markStart) ∧
        (o'.wrapBottom = o.wrapBottom ∨ q = .markWrapBottom) ∧
        (o'.wrapTop = o.wrapTop ∨ q = .markWrapTop) ∧
        (o'.endAt = o.endAt ∨ q = .markWrapTop ∨ q = .markEnd)

/-- R10 and R58 (the spec's decisions D3 and D22): a request is served whole: it leaves the stream, gets exactly one
response, and its output transactions follow the earlier ones; only FINALIZE and ENABLE have any. -/
def Obligations.EachRequestIsOneTransaction : Prop :=
  ∀ (s t : State) (q : Request) (rest : List Request), s.requests = q :: rest → step s = .next t →
    t.requests = rest ∧
    (∃ r, t.responses = s.responses ++ [r]) ∧
    (∃ os, t.outputs = s.outputs ++ os ∧ (os ≠ [] → q = .finalize ∨ ∃ m, q = .enable m))

/-- R197 and R61 (derived in the spec): once a block is finalized, nothing but SESSION_START changes its image or its
flag, and no `MemWrite` to it is issued. -/
def Obligations.FinalizedImageIsFixed : Prop :=
  ∀ (s t : State) (q : Request) (rest : List Request) (b : BlockIdx), s.requests = q :: rest →
    q ≠ .sessionStart → s.isFinalized b = true → step s = .next t →
    t.isFinalized b = true ∧ (t.block b).imem = (s.block b).imem ∧
    (∃ os, t.outputs = s.outputs ++ os ∧ ∀ i w, Output.memWrite b i w ∉ os)

/-- R197 and R259 (derived, and decision D8): no request but SESSION_START changes a staging-buffer cell below the cursor
of a block that is not finalized, whichever block is active. -/
def Obligations.UnfinalizedWordsSurvive : Prop :=
  ∀ (s t : State) (q : Request) (rest : List Request) (b : BlockIdx), s.Inv → s.requests = q :: rest →
    q ≠ .sessionStart → s.isFinalized b = false → step s = .next t →
    ∀ i, i < s.cursor b → t.buf.lookup i = s.buf.lookup i

/-- R61 and R32 (derived, and decision D6): a block's enable mask changes only by an ENABLE of that block while it is
finalized, gains bits only, and only bits of units with a finalized program. -/
def Obligations.UnitsAreEnabledOnlyAfterFinalize : Prop :=
  ∀ (s t : State) (q : Request) (rest : List Request) (b : BlockIdx) (u : UnitIdx), s.requests = q :: rest →
    q ≠ .sessionStart → step s = .next t →
    ((s.block b).enabled.getLsbD u = true → (t.block b).enabled.getLsbD u = true) ∧
    ((s.block b).enabled.getLsbD u = false → (t.block b).enabled.getLsbD u = true →
      (∃ m, q = .enable m) ∧ s.activeBlock = some b ∧ s.isFinalized b = true ∧
      ∃ o, s.desc b u = .selected .finalized o)

/-! ## Runs of several requests -/

/-- R198 (derived in the spec): a label taken at cursor `c` with delta `n` is the index that the `(n+1)`-th EMIT after
it answers, and that index holds that EMIT's word. -/
def Obligations.ForwardLabelIsExact : Prop :=
  ∀ (s : State) (b : BlockIdx) (u : UnitIdx) (p : Phase) (o : Offsets) (n : Nat) (ws : List Word)
    (rest : List Request),
    s.status = .running → s.activeBlock = some b → s.isFinalized b = false → s.activeUnit = some u →
    s.desc b u = .selected p o → ¬ s.otherOwner b → ws.length = n + 1 → s.cursor b + n < 32 →
    s.requests = .label n :: (ws.map Request.emit ++ rest) →
    ∃ t, runFrom (n + 2) s = .next t ∧ t.requests = rest ∧ t.status = .running ∧
      t.responses = s.responses ++ [.value (s.cursor b + n)] ++
        (List.range (n + 1)).map (fun k => .value (s.cursor b + k)) ∧
      t.buf.lookup (s.cursor b + n) = ws[n]?

/-- R196 (derived in the spec): unit A and then unit B selected in one block, with any requests of that block between
and none failing: B's program begins as many words after A's as were emitted in between. -/
def Obligations.UnitsOfABlockAreContinuous : Prop :=
  ∀ (s t : State) (b : BlockIdx) (ua ub : UnitIdx) (qs rest : List Request),
    s.activeBlock = some b →
    s.requests = .selectUnit ua.val :: (qs ++ .selectUnit ub.val :: rest) →
    (∀ q ∈ qs, q ≠ .sessionStart ∧ ∀ n, q ≠ .selectBlock n) →
    runFrom (qs.length + 2) s = .next t → t.status = .running →
    (∃ p o, t.desc b ub = .selected p o ∧ o.firstInstr = s.cursor b + qs.countP Request.isEmit) ∧
    (ua ≠ ub → (∀ q ∈ qs, q ≠ .selectUnit ua.val) →
      ∃ p o, t.desc b ua = .selected p o ∧ o.firstInstr = s.cursor b)

/-- R56, R192 (derived in the spec): words emitted into a block and then finalized stand in its image at consecutive
indices from the cursor they were emitted at, after the words emitted before. -/
def Obligations.EmittedWordsReachTheImage : Prop :=
  ∀ (s t : State) (b : BlockIdx) (ws : List Word) (rest : List Request),
    s.Inv → s.activeBlock = some b → s.isFinalized b = false →
    s.requests = ws.map Request.emit ++ .finalize :: rest →
    runFrom (ws.length + 1) s = .next t → t.status = .running →
    t.isFinalized b = true ∧ t.cursor b = s.cursor b + ws.length ∧
    (∀ i, i < s.cursor b → (t.block b).imem.lookup i = s.buf.lookup i) ∧
    (∀ k, k < ws.length → (t.block b).imem.lookup (s.cursor b + k) = ws[k]?) ∧
    (∀ i, s.cursor b + ws.length ≤ i → (t.block b).imem.lookup i = none)

/-! ## The delay suffix, the status and the range of a jump target -/

/-- R107: for every delay, and so for every word's delay. -/
def Obligations.DelaySuffixIsOmittedAtZero : Prop :=
  (∀ delay : Nat, delaySuffix delay = if 0 < delay then " [" ++ dec (delay : Int) ++ "]" else "") ∧
  (∀ (w : Word) (origin : Origin), (decodeMnemonic w origin).delaySuffix =
    if 0 < (w.extractLsb' 8 5).toNat then " [" ++ dec ((w.extractLsb' 8 5).toNat : Int) ++ "]" else "")

/-- R30: the status is running after SESSION_START; a request that fails in a running session sets it to its code, a
code of R221's table that no refusal carries, and one that does not leaves it running; once set it stays until the
next SESSION_START. -/
def Obligations.StatusHoldsTheFirstError : Prop :=
  ∀ (s t : State) (q : Request) (rest : List Request), s.requests = q :: rest → step s = .next t →
    (q = .sessionStart → t.status = .running) ∧
    (s.status = .running → ∃ r, t.responses = s.responses ++ [r] ∧
      ((∃ code, r = .error code ∧ code ≠ .sessionAborted ∧ t.status = .aborted code) ∨
       ((∀ code, r ≠ .error code) ∧ t.status = .running))) ∧
    (∀ code, s.status = .aborted code → q ≠ .sessionStart → t.status = .aborted code)

/-- R8 (the spec's decision D4): the target a `jmp` word decodes to against an origin 0..31 is a signed integer in
-31..31, and in a state that meets the invariant every program's `first_instr`, LIST's origin, is such an origin. -/
def Obligations.RelativeTargetsStayInRange : Prop :=
  (∀ (w : Word) (origin : Origin), formOf w = .jmp →
    ∃ (c : String) (rel : Int), (decodeMnemonic w origin).operands = [c, dec rel] ∧
      rel = ((w.extractLsb' 0 5).toNat : Int) - (origin.val : Int) ∧ -31 ≤ rel ∧ rel ≤ 31) ∧
  (∀ (s : State) (b : BlockIdx) (u : UnitIdx) (p : Phase) (o : Offsets), s.Inv → s.desc b u = .selected p o →
    o.firstInstr < 32)
end

