-- ==== Sys2Proof/Laws/Codec.lean ====
section
/-!
SUPPORT. What a field of a word is, as bits and as a number, and what each field of a packed word holds.
-/

namespace Sys2Proof

/-- A field is an extraction of bits. -/
theorem field_eq_extract (w : Word) (lo n : Nat) : field w lo n = (w.extractLsb' lo n).toNat := by
  simp [field, BitVec.extractLsb'_toNat, Nat.shiftRight_eq_div_pow]

theorem field_lt (w : Word) (lo n : Nat) : field w lo n < 2 ^ n := Nat.mod_lt _ (Nat.two_pow_pos n)

theorem mask_lt (n v : Nat) : mask n v < 2 ^ n := Nat.mod_lt _ (Nat.two_pow_pos n)

theorem mask_of_fits {n v : Nat} (h : Fits n v) : mask n v = v := Nat.mod_eq_of_lt h

/-- The number of a packed word, for a class of 3 bits and an operand byte of 8. -/
theorem packWord_toNat {cls delay operandByte : Nat} (hc : cls < 8) (hb : operandByte < 256) :
    (packWord cls delay operandByte).toNat = cls * 8192 + delay % 32 * 256 + operandByte := by
  simp only [packWord, mask, BitVec.toNat_ofNat]
  omega

/-- The class of a packed word (R101). -/
theorem packWord_class {cls delay operandByte : Nat} (hc : cls < 8) (hb : operandByte < 256) :
    field (packWord cls delay operandByte) 13 3 = cls := by
  simp only [field, packWord_toNat hc hb]
  omega

/-- The delay of a packed word (R101, R102). -/
theorem packWord_delay {cls delay operandByte : Nat} (hc : cls < 8) (hb : operandByte < 256) :
    field (packWord cls delay operandByte) 8 5 = mask 5 delay := by
  simp only [field, mask, packWord_toNat hc hb]
  omega

/-- A field inside the operand byte of a packed word. -/
theorem packWord_operand {cls delay operandByte : Nat} (hc : cls < 8) (hb : operandByte < 256) {lo n : Nat}
    (h : lo + n ≤ 8) : field (packWord cls delay operandByte) lo n = operandByte / 2 ^ lo % 2 ^ n := by
  simp only [field, packWord_toNat hc hb]
  have hs : cls * 8192 + delay % 32 * 256 + operandByte =
      operandByte + 2 ^ lo * (2 ^ n * (2 ^ (8 - lo - n) * (cls * 32 + delay % 32))) := by
    rw [← Nat.mul_assoc, ← Nat.mul_assoc, ← Nat.pow_add, ← Nat.pow_add]
    have : lo + n + (8 - lo - n) = 8 := by omega
    rw [this]
    omega
  rw [hs, Nat.add_mul_div_left _ _ (Nat.two_pow_pos lo), Nat.add_mul_mod_self_left]

end Sys2Proof
end

