-- ==== Sys2Proof/Laws/Memory.lean ====
section
/-!
SUPPORT. What reading after a write gives, that a write keeps the canonical form, and that memories in canonical
form that read alike are equal.
-/

namespace Sys2Proof.Machine

@[simp] theorem Memory.lookup_nil (i : Nat) : Memory.lookup [] i = none := rfl

@[simp] theorem Memory.lookup_write_same (m : Memory) (i : Nat) (w : Word) : (m.write i w).lookup i = some w := by
  induction m with
  | nil => simp [Memory.write, Memory.lookup]
  | cons a rest ih =>
    obtain ⟨j, v⟩ := a
    simp only [Memory.write]
    split
    · simp [Memory.lookup]
    · split
      · simp [Memory.lookup]
      · rename_i h
        simp [Memory.lookup, Ne.symm h, ih]

theorem Memory.lookup_write_other (m : Memory) {i k : Nat} (h : k ≠ i) (w : Word) :
    (m.write i w).lookup k = m.lookup k := by
  induction m with
  | nil => simp [Memory.write, Memory.lookup, Ne.symm h]
  | cons a rest ih =>
    obtain ⟨j, v⟩ := a
    simp only [Memory.write]
    split
    · simp [Memory.lookup, Ne.symm h]
    · split
      · rename_i e; subst e; simp [Memory.lookup, Ne.symm h]
      · simp [Memory.lookup, ih]

theorem Memory.lookup_write (m : Memory) (i k : Nat) (w : Word) :
    (m.write i w).lookup k = if k = i then some w else m.lookup k := by
  by_cases h : k = i
  · subst h; simp
  · simp [h, Memory.lookup_write_other m h w]

/-- Every entry of a written memory is the new one or an old one. -/
theorem Memory.mem_write {m : Memory} {i : Nat} {w : Word} {a : Nat × Word} (h : a ∈ m.write i w) :
    a = (i, w) ∨ a ∈ m := by
  induction m with
  | nil => simpa [Memory.write] using h
  | cons b rest ih =>
    obtain ⟨j, v⟩ := b
    simp only [Memory.write] at h
    split at h
    · simpa using h
    · split at h
      · rcases List.mem_cons.mp h with h | h
        · exact .inl h
        · exact .inr (List.mem_cons_of_mem _ h)
      · rcases List.mem_cons.mp h with h | h
        · exact .inr (by simp [h])
        · exact (ih h).imp id (List.mem_cons_of_mem _)

theorem Memory.wf_iff (m : Memory) :
    m.wf = true ↔ m.Pairwise (fun a b => a.1 < b.1) ∧ ∀ a ∈ m, a.1 < Config.capacity := by
  simp [Memory.wf]

/-- A write inside the memory keeps the canonical form. -/
theorem Memory.write_wf {m : Memory} (h : m.wf = true) {i : Nat} (hi : i < Config.capacity) (w : Word) :
    (m.write i w).wf = true := by
  rw [Memory.wf_iff] at h ⊢
  refine ⟨?_, fun a ha => ?_⟩
  · have hp := h.1
    clear h
    induction m with
    | nil => simp [Memory.write]
    | cons b rest ih =>
      obtain ⟨j, v⟩ := b
      obtain ⟨hj, hrest⟩ := List.pairwise_cons.mp hp
      simp only [Memory.write]
      split
      · rename_i hlt
        refine List.pairwise_cons.mpr ⟨fun a ha => ?_, hp⟩
        rcases List.mem_cons.mp ha with rfl | ha
        · exact hlt
        · exact lt_trans hlt (hj a ha)
      · split
        · rename_i e
          subst e
          exact List.pairwise_cons.mpr ⟨hj, hrest⟩
        · rename_i h1 h2
          refine List.pairwise_cons.mpr ⟨fun a ha => ?_, ih hrest⟩
          rcases Memory.mem_write ha with rfl | ha
          · show j < i
            omega
          · exact hj a ha
  · rcases Memory.mem_write ha with rfl | ha
    · exact hi
    · exact h.2 a ha

@[simp] theorem Memory.nil_wf : Memory.wf [] = true := rfl

theorem Memory.lookup_eq_none_of_forall_ne {m : Memory} {i : Nat} (h : ∀ a ∈ m, a.1 ≠ i) : m.lookup i = none := by
  induction m with
  | nil => rfl
  | cons a rest ih =>
    obtain ⟨j, v⟩ := a
    have hj : j ≠ i := h (j, v) (by simp)
    simp [Memory.lookup, hj, ih fun a ha => h a (List.mem_cons_of_mem _ ha)]

/-- An index outside the memory reads as `UNWRITTEN` in a canonical memory. -/
theorem Memory.lookup_outside {m : Memory} (h : m.wf = true) {i : Nat} (hi : Config.capacity ≤ i) :
    m.lookup i = none :=
  Memory.lookup_eq_none_of_forall_ne fun a ha e => by
    have := ((Memory.wf_iff m).mp h).2 a ha
    omega

theorem Memory.lookup_head (j : Nat) (v : Word) (rest : Memory) : Memory.lookup ((j, v) :: rest) j = some v := by
  simp [Memory.lookup]

/-- Canonical memories that read alike are the same data. -/
theorem Memory.ext_of_wf {m n : Memory} (hm : m.wf = true) (hn : n.wf = true)
    (h : ∀ i, m.lookup i = n.lookup i) : m = n := by
  obtain ⟨pm, -⟩ := (Memory.wf_iff m).mp hm
  obtain ⟨pn, -⟩ := (Memory.wf_iff n).mp hn
  clear hm hn
  induction m generalizing n with
  | nil =>
    cases n with
    | nil => rfl
    | cons b rest => have := h b.1; simp [Memory.lookup] at this
  | cons a mrest ih =>
    obtain ⟨i, v⟩ := a
    cases n with
    | nil => have := h i; simp [Memory.lookup] at this
    | cons b nrest =>
      obtain ⟨j, w⟩ := b
      obtain ⟨hi, pm'⟩ := List.pairwise_cons.mp pm
      obtain ⟨hj, pn'⟩ := List.pairwise_cons.mp pn
      have none_m : ∀ k, k ≤ i → Memory.lookup mrest k = none := fun k hk =>
        Memory.lookup_eq_none_of_forall_ne fun a ha e => by have := hi a ha; simp at this; omega
      have none_n : ∀ k, k ≤ j → Memory.lookup nrest k = none := fun k hk =>
        Memory.lookup_eq_none_of_forall_ne fun a ha e => by have := hj a ha; simp at this; omega
      have eij : i = j := by
        by_contra hne
        rcases Nat.lt_or_gt_of_ne hne with hlt | hlt
        · have := h i
          simp [Memory.lookup, none_n i (by omega), Ne.symm hne] at this
        · have := h j
          simp [Memory.lookup, none_m j (by omega), hne] at this
      subst eij
      have evw : v = w := by simpa [Memory.lookup] using h i
      subst evw
      have hrest : ∀ k, Memory.lookup mrest k = Memory.lookup nrest k := fun k => by
        by_cases e : k = i
        · rw [none_m k (by omega), none_n k (by omega)]
        · simpa [Memory.lookup, Ne.symm e] using h k
      rw [ih hrest pm' pn']

/-- Everything `Memory.read` can answer. -/
theorem Memory.read_ok {m : Memory} {i : Nat} {f : Fault} {w : Word} (h : m.read i f = .ok w) :
    i < Config.capacity ∧ m.lookup i = some w := by
  unfold Memory.read at h
  split at h
  · cases h
  · split at h
    · cases h
    · rename_i hw
      cases h
      exact ⟨by omega, hw⟩

theorem Memory.read_of_lookup {m : Memory} {i : Nat} (f : Fault) {w : Word} (hi : i < Config.capacity)
    (h : m.lookup i = some w) : m.read i f = .ok w := by
  have : ¬ Config.capacity ≤ i := by omega
  simp [Memory.read, this, h]

end Sys2Proof.Machine
end

