-- ==== Sys2Proof/Laws/State.lean ====
section
/-!
SUPPORT. One lemma per field of `State` per state update, and what the per-block accessors read after the updates
that touch a block.
-/

namespace Sys2Proof.Machine

variable (s : State)

/-! ## `respond` -/

@[simp] theorem State.respond_activeBlock (r : Response) : (s.respond r).activeBlock = s.activeBlock := rfl
@[simp] theorem State.respond_activeUnit (r : Response) : (s.respond r).activeUnit = s.activeUnit := rfl
@[simp] theorem State.respond_blocks (r : Response) : (s.respond r).blocks = s.blocks := rfl
@[simp] theorem State.respond_buf (r : Response) : (s.respond r).buf = s.buf := rfl
@[simp] theorem State.respond_bufOwner (r : Response) : (s.respond r).bufOwner = s.bufOwner := rfl
@[simp] theorem State.respond_status (r : Response) : (s.respond r).status = s.status := rfl
@[simp] theorem State.respond_requests (r : Response) : (s.respond r).requests = s.requests := rfl
@[simp] theorem State.respond_decoding (r : Response) : (s.respond r).decoding = none := rfl
@[simp] theorem State.respond_responses (r : Response) : (s.respond r).responses = s.responses ++ [r] := rfl
@[simp] theorem State.respond_outputs (r : Response) : (s.respond r).outputs = s.outputs := rfl

/-! ## `abort` -/

@[simp] theorem State.abort_activeBlock (e : ErrorCode) : (s.abort e).activeBlock = s.activeBlock := rfl
@[simp] theorem State.abort_activeUnit (e : ErrorCode) : (s.abort e).activeUnit = s.activeUnit := rfl
@[simp] theorem State.abort_blocks (e : ErrorCode) : (s.abort e).blocks = s.blocks := rfl
@[simp] theorem State.abort_buf (e : ErrorCode) : (s.abort e).buf = s.buf := rfl
@[simp] theorem State.abort_bufOwner (e : ErrorCode) : (s.abort e).bufOwner = s.bufOwner := rfl
@[simp] theorem State.abort_status (e : ErrorCode) : (s.abort e).status = .aborted e := rfl
@[simp] theorem State.abort_requests (e : ErrorCode) : (s.abort e).requests = s.requests := rfl
@[simp] theorem State.abort_decoding (e : ErrorCode) : (s.abort e).decoding = none := rfl
@[simp] theorem State.abort_responses (e : ErrorCode) : (s.abort e).responses = s.responses ++ [.error e] := rfl
@[simp] theorem State.abort_outputs (e : ErrorCode) : (s.abort e).outputs = s.outputs := rfl

/-! ## `refuseAborted` -/

@[simp] theorem State.refuseAborted_activeBlock : (s.refuseAborted).activeBlock = s.activeBlock := rfl
@[simp] theorem State.refuseAborted_activeUnit : (s.refuseAborted).activeUnit = s.activeUnit := rfl
@[simp] theorem State.refuseAborted_blocks : (s.refuseAborted).blocks = s.blocks := rfl
@[simp] theorem State.refuseAborted_buf : (s.refuseAborted).buf = s.buf := rfl
@[simp] theorem State.refuseAborted_bufOwner : (s.refuseAborted).bufOwner = s.bufOwner := rfl
@[simp] theorem State.refuseAborted_status : (s.refuseAborted).status = s.status := rfl
@[simp] theorem State.refuseAborted_requests : (s.refuseAborted).requests = s.requests := rfl
@[simp] theorem State.refuseAborted_decoding : (s.refuseAborted).decoding = none := rfl
@[simp] theorem State.refuseAborted_responses :
    (s.refuseAborted).responses = s.responses ++ [.error .sessionAborted] := rfl
@[simp] theorem State.refuseAborted_outputs : (s.refuseAborted).outputs = s.outputs := rfl

/-! ## `sessionStart` -/

@[simp] theorem State.sessionStart_activeBlock : (s.sessionStart).activeBlock = none := rfl
@[simp] theorem State.sessionStart_activeUnit : (s.sessionStart).activeUnit = none := rfl
@[simp] theorem State.sessionStart_blocks :
    (s.sessionStart).blocks = Vector.replicate Config.numBlocks Block.fresh := rfl
@[simp] theorem State.sessionStart_buf : (s.sessionStart).buf = [] := rfl
@[simp] theorem State.sessionStart_bufOwner : (s.sessionStart).bufOwner = none := rfl
@[simp] theorem State.sessionStart_status : (s.sessionStart).status = .running := rfl
@[simp] theorem State.sessionStart_requests : (s.sessionStart).requests = s.requests := rfl
@[simp] theorem State.sessionStart_decoding : (s.sessionStart).decoding = none := rfl
@[simp] theorem State.sessionStart_responses : (s.sessionStart).responses = s.responses ++ [.ok] := rfl
@[simp] theorem State.sessionStart_outputs : (s.sessionStart).outputs = s.outputs := rfl

/-! ## `setBlock` -/

@[simp] theorem State.setBlock_activeBlock (b : BlockIdx) (k : Block) :
    (s.setBlock b k).activeBlock = s.activeBlock := rfl
@[simp] theorem State.setBlock_activeUnit (b : BlockIdx) (k : Block) :
    (s.setBlock b k).activeUnit = s.activeUnit := rfl
@[simp] theorem State.setBlock_blocks (b : BlockIdx) (k : Block) : (s.setBlock b k).blocks = s.blocks.set b k := rfl
@[simp] theorem State.setBlock_buf (b : BlockIdx) (k : Block) : (s.setBlock b k).buf = s.buf := rfl
@[simp] theorem State.setBlock_bufOwner (b : BlockIdx) (k : Block) : (s.setBlock b k).bufOwner = s.bufOwner := rfl
@[simp] theorem State.setBlock_status (b : BlockIdx) (k : Block) : (s.setBlock b k).status = s.status := rfl
@[simp] theorem State.setBlock_requests (b : BlockIdx) (k : Block) : (s.setBlock b k).requests = s.requests := rfl
@[simp] theorem State.setBlock_decoding (b : BlockIdx) (k : Block) : (s.setBlock b k).decoding = s.decoding := rfl
@[simp] theorem State.setBlock_responses (b : BlockIdx) (k : Block) : (s.setBlock b k).responses = s.responses := rfl
@[simp] theorem State.setBlock_outputs (b : BlockIdx) (k : Block) : (s.setBlock b k).outputs = s.outputs := rfl

/-! ## `setDesc` -/

@[simp] theorem State.setDesc_activeBlock (b : BlockIdx) (u : UnitIdx) (d : Descriptor) :
    (s.setDesc b u d).activeBlock = s.activeBlock := rfl
@[simp] theorem State.setDesc_activeUnit (b : BlockIdx) (u : UnitIdx) (d : Descriptor) :
    (s.setDesc b u d).activeUnit = s.activeUnit := rfl
@[simp] theorem State.setDesc_blocks (b : BlockIdx) (u : UnitIdx) (d : Descriptor) :
    (s.setDesc b u d).blocks = s.blocks.set b { s.block b with desc := (s.block b).desc.set u d } := rfl
@[simp] theorem State.setDesc_buf (b : BlockIdx) (u : UnitIdx) (d : Descriptor) : (s.setDesc b u d).buf = s.buf := rfl
@[simp] theorem State.setDesc_bufOwner (b : BlockIdx) (u : UnitIdx) (d : Descriptor) :
    (s.setDesc b u d).bufOwner = s.bufOwner := rfl
@[simp] theorem State.setDesc_status (b : BlockIdx) (u : UnitIdx) (d : Descriptor) :
    (s.setDesc b u d).status = s.status := rfl
@[simp] theorem State.setDesc_requests (b : BlockIdx) (u : UnitIdx) (d : Descriptor) :
    (s.setDesc b u d).requests = s.requests := rfl
@[simp] theorem State.setDesc_decoding (b : BlockIdx) (u : UnitIdx) (d : Descriptor) :
    (s.setDesc b u d).decoding = s.decoding := rfl
@[simp] theorem State.setDesc_responses (b : BlockIdx) (u : UnitIdx) (d : Descriptor) :
    (s.setDesc b u d).responses = s.responses := rfl
@[simp] theorem State.setDesc_outputs (b : BlockIdx) (u : UnitIdx) (d : Descriptor) :
    (s.setDesc b u d).outputs = s.outputs := rfl

/-! ## `loadBlock` -/

@[simp] theorem State.loadBlock_activeBlock (b : BlockIdx) (ws : List Word) :
    (s.loadBlock b ws).activeBlock = s.activeBlock := rfl
@[simp] theorem State.loadBlock_activeUnit (b : BlockIdx) (ws : List Word) :
    (s.loadBlock b ws).activeUnit = s.activeUnit := rfl
@[simp] theorem State.loadBlock_blocks (b : BlockIdx) (ws : List Word) :
    (s.loadBlock b ws).blocks = s.blocks.set b
      { s.block b with
        imem := (s.block b).imem.writeFrom 0 ws
        desc := (s.block b).desc.map Descriptor.closed
        finalized := true } := rfl
@[simp] theorem State.loadBlock_buf (b : BlockIdx) (ws : List Word) : (s.loadBlock b ws).buf = s.buf := rfl
@[simp] theorem State.loadBlock_bufOwner (b : BlockIdx) (ws : List Word) :
    (s.loadBlock b ws).bufOwner = s.bufOwner := rfl
@[simp] theorem State.loadBlock_status (b : BlockIdx) (ws : List Word) : (s.loadBlock b ws).status = s.status := rfl
@[simp] theorem State.loadBlock_requests (b : BlockIdx) (ws : List Word) :
    (s.loadBlock b ws).requests = s.requests := rfl
@[simp] theorem State.loadBlock_decoding (b : BlockIdx) (ws : List Word) :
    (s.loadBlock b ws).decoding = s.decoding := rfl
@[simp] theorem State.loadBlock_responses (b : BlockIdx) (ws : List Word) :
    (s.loadBlock b ws).responses = s.responses := rfl
@[simp] theorem State.loadBlock_outputs (b : BlockIdx) (ws : List Word) :
    (s.loadBlock b ws).outputs = s.outputs ++ memWrites b 0 ws ++ allUnits.filterMap (wrapOutput b (s.block b)) := rfl

/-! ## `accept` -/

@[simp] theorem State.accept_activeBlock (q : Request) (rest : List Request) :
    (s.accept q rest).activeBlock = s.activeBlock := rfl
@[simp] theorem State.accept_activeUnit (q : Request) (rest : List Request) :
    (s.accept q rest).activeUnit = s.activeUnit := rfl
@[simp] theorem State.accept_blocks (q : Request) (rest : List Request) :
    (s.accept q rest).blocks = s.blocks := rfl
@[simp] theorem State.accept_buf (q : Request) (rest : List Request) : (s.accept q rest).buf = s.buf := rfl
@[simp] theorem State.accept_bufOwner (q : Request) (rest : List Request) :
    (s.accept q rest).bufOwner = s.bufOwner := rfl
@[simp] theorem State.accept_status (q : Request) (rest : List Request) :
    (s.accept q rest).status = s.status := rfl
@[simp] theorem State.accept_requests (q : Request) (rest : List Request) :
    (s.accept q rest).requests = rest := rfl
@[simp] theorem State.accept_responses (q : Request) (rest : List Request) :
    (s.accept q rest).responses = s.responses := rfl
@[simp] theorem State.accept_outputs (q : Request) (rest : List Request) :
    (s.accept q rest).outputs = s.outputs := rfl
@[simp] theorem State.accept_decoding_decode (w : Word) (origin : Origin) (rest : List Request) :
    (s.accept (.decode w origin) rest).decoding = some ⟨w, origin⟩ := rfl
@[simp] theorem State.accept_decoding_encode (i : Instr) (rest : List Request) :
    (s.accept (.encode i) rest).decoding = none := rfl

/-! ## Accessors

They read `blocks` alone, so an update that keeps it keeps them. -/

theorem State.block_congr {s t : State} (h : t.blocks = s.blocks) (b : BlockIdx) : t.block b = s.block b := by
  simp [State.block, h]

@[simp] theorem State.respond_block (r : Response) (b' : BlockIdx) : (s.respond r).block b' = s.block b' := rfl
@[simp] theorem State.abort_block (e : ErrorCode) (b' : BlockIdx) : (s.abort e).block b' = s.block b' := rfl
@[simp] theorem State.refuseAborted_block (b' : BlockIdx) : (s.refuseAborted).block b' = s.block b' := rfl
@[simp] theorem State.accept_block (q : Request) (rest : List Request) (b' : BlockIdx) :
    (s.accept q rest).block b' = s.block b' := rfl

/-- The accessors of one field or descriptor, as reads of the block. -/
theorem State.cursor_eq (b : BlockIdx) : s.cursor b = (s.block b).cursor := rfl
theorem State.isFinalized_eq (b : BlockIdx) : s.isFinalized b = (s.block b).finalized := rfl
theorem State.desc_eq (b : BlockIdx) (u : UnitIdx) : s.desc b u = (s.block b).descOf u := rfl

@[simp] theorem State.setBlock_block_same (b : BlockIdx) (k : Block) : (s.setBlock b k).block b = k := by
  simp [State.block, State.setBlock, Vector.get_eq_getElem]

theorem State.setBlock_block_other {b b' : BlockIdx} (h : b' ≠ b) (k : Block) :
    (s.setBlock b k).block b' = s.block b' := by
  have h' : b.val ≠ b'.val := fun e => h (Fin.ext e.symm)
  simp [State.block, State.setBlock, Vector.get_eq_getElem, h']

theorem State.setBlock_block (b b' : BlockIdx) (k : Block) :
    (s.setBlock b k).block b' = if b' = b then k else s.block b' := by
  by_cases h : b' = b
  · subst h; simp
  · simp [h, State.setBlock_block_other s h]

theorem State.setDesc_block (b b' : BlockIdx) (u : UnitIdx) (d : Descriptor) :
    (s.setDesc b u d).block b' =
      if b' = b then { s.block b with desc := (s.block b).desc.set u d } else s.block b' :=
  State.setBlock_block s b b' _

theorem State.loadBlock_block (b b' : BlockIdx) (ws : List Word) :
    (s.loadBlock b ws).block b' =
      if b' = b then
        { s.block b with
          imem := (s.block b).imem.writeFrom 0 ws
          desc := (s.block b).desc.map Descriptor.closed
          finalized := true }
      else s.block b' :=
  State.setBlock_block _ b b' _

@[simp] theorem State.sessionStart_block (b' : BlockIdx) : s.sessionStart.block b' = Block.fresh := by
  simp [State.block, Vector.get_eq_getElem]

@[simp] theorem Block.fresh_descOf (u : UnitIdx) : Block.fresh.descOf u = .unselected := by
  simp [Block.descOf, Block.fresh, Vector.get_eq_getElem]

/-- One descriptor after one descriptor of the block was replaced. -/
theorem Block.descOf_set (k : Block) (u u' : UnitIdx) (d : Descriptor) :
    ({ k with desc := k.desc.set u d } : Block).descOf u' = if u' = u then d else k.descOf u' := by
  by_cases h : u' = u
  · subst h; simp [Block.descOf, Vector.get_eq_getElem]
  · have h' : u.val ≠ u'.val := fun e => h (Fin.ext e.symm)
    simp [Block.descOf, Vector.get_eq_getElem, h, h']

/-- Every descriptor after all were closed. -/
theorem Block.descOf_map (k : Block) (f : Descriptor → Descriptor) (u : UnitIdx) :
    ({ k with desc := k.desc.map f } : Block).descOf u = f (k.descOf u) := by
  simp [Block.descOf, Vector.get_eq_getElem]

/-- The other fields of a block do not read its descriptors. -/
@[simp] theorem Block.descOf_cursor (k : Block) (c : Nat) (u : UnitIdx) :
    ({ k with cursor := c } : Block).descOf u = k.descOf u := rfl
@[simp] theorem Block.descOf_imem (k : Block) (m : Memory) (u : UnitIdx) :
    ({ k with imem := m } : Block).descOf u = k.descOf u := rfl
@[simp] theorem Block.descOf_finalized (k : Block) (f : Bool) (u : UnitIdx) :
    ({ k with finalized := f } : Block).descOf u = k.descOf u := rfl
@[simp] theorem Block.descOf_enabled (k : Block) (e : BitVec Config.numUnits) (u : UnitIdx) :
    ({ k with enabled := e } : Block).descOf u = k.descOf u := rfl

end Sys2Proof.Machine
end

