-- ==== Sys2Proof/Laws/Ops.lean ====
section
/-!
SUPPORT. For each shared operation and each command of the calculator, once, everything it can do: if it answers,
then one of these things holds.
-/

namespace Sys2Proof.Machine

variable {s t : State} {r : Response} {b : BlockIdx} {u : UnitIdx}

/-! ## Serving -/

/-- A codec transaction always completes: it answers the word, or the record of the DECODE in progress. -/
theorem codecTransaction_encode (i : Instr) (w : Word) (rd : Nat → Rendering) (h : s.decoding = none) :
    codecTransaction i w rd s = .next (s.respond (.word w)) := by
  simp [codecTransaction, h]

theorem codecTransaction_decode (i : Instr) (w : Word) (rd : Nat → Rendering) {a : DecodeArgs}
    (h : s.decoding = some a) :
    codecTransaction i w rd s = .next (s.respond (.mnemonic (mnemonicOf i (rd a.origin) a.word))) := by
  simp [codecTransaction, h]

theorem codecTransaction_next {i : Instr} {w : Word} {rd : Nat → Rendering}
    (h : codecTransaction i w rd s = .next t) :
    ∃ r, t = s.respond r ∧ ((s.decoding = none ∧ r = .word w) ∨
      ∃ a, s.decoding = some a ∧ r = .mnemonic (mnemonicOf i (rd a.origin) a.word)) := by
  cases hd : s.decoding with
  | none =>
    rw [codecTransaction_encode i w rd hd] at h
    cases h
    exact ⟨_, rfl, .inl ⟨rfl, rfl⟩⟩
  | some a =>
    rw [codecTransaction_decode i w rd hd] at h
    cases h
    exact ⟨_, rfl, .inr ⟨a, rfl, rfl⟩⟩

/-- Everything a calculator request can come to: turned away by an aborted session, done, raised, or stuck. -/
theorem calculator_cases (command : State → Reply) (s : State) :
    (∃ e, s.status = .aborted e ∧ calculator command s = .next s.refuseAborted) ∨
    (s.status = .running ∧
      ((∃ t r, command s = .done t r ∧ calculator command s = .next (t.respond r)) ∨
       (∃ e, command s = .raise e ∧ calculator command s = .next (s.abort e)) ∨
       (∃ f, command s = .stuck f ∧ calculator command s = .fault f))) := by
  cases hs : s.status with
  | aborted e => exact .inl ⟨e, rfl, by simp [calculator, hs]⟩
  | running =>
    refine .inr ⟨rfl, ?_⟩
    cases hc : command s with
    | done t r => exact .inl ⟨t, r, rfl, by simp [calculator, hs, hc, settle]⟩
    | raise e => exact .inr (.inl ⟨e, rfl, by simp [calculator, hs, hc, settle]⟩)
    | stuck f => exact .inr (.inr ⟨f, rfl, by simp [calculator, hs, hc, settle]⟩)

/-! ## Selection checks -/

theorem requireUnit_ok_iff :
    requireUnit s = .ok (b, u) ↔
      s.activeBlock = some b ∧ s.isFinalized b = false ∧ s.activeUnit = some u ∧
        (s.desc b u).isSelected = true := by
  constructor
  · intro h
    unfold requireUnit at h
    split at h
    · cases h
    · rename_i b' hb
      split at h
      · cases h
      · rename_i hf
        split at h
        · cases h
        · rename_i u' hu
          split at h
          · rename_i hd
            cases h
            exact ⟨hb, by simpa using hf, hu, hd⟩
          · cases h
  · rintro ⟨hb, hf, hu, hd⟩
    simp [requireUnit, hb, hf, hu, hd]

theorem Descriptor.isSelected_iff {d : Descriptor} : d.isSelected = true ↔ ∃ p o, d = .selected p o := by
  cases d <;> simp [Descriptor.isSelected]

/-- A command behind `RequireUnit()` that is done found a unit and its descriptor. -/
theorem withUnit_done {k : BlockIdx → UnitIdx → Reply} (h : withUnit s k = .done t r) :
    ∃ b u, s.activeBlock = some b ∧ s.isFinalized b = false ∧ s.activeUnit = some u ∧
      (s.desc b u).isSelected = true ∧ k b u = .done t r := by
  unfold withUnit at h
  split at h
  · cases h
  · rename_i b u hr
    obtain ⟨hb, hf, hu, hd⟩ := requireUnit_ok_iff.mp hr
    exact ⟨b, u, hb, hf, hu, hd, h⟩

theorem withUnit_of_ok {k : BlockIdx → UnitIdx → Reply} (hb : s.activeBlock = some b)
    (hf : s.isFinalized b = false) (hu : s.activeUnit = some u) (hd : (s.desc b u).isSelected = true) :
    withUnit s k = k b u := by
  simp [withUnit, requireUnit_ok_iff.mpr ⟨hb, hf, hu, hd⟩]

theorem withUnit_stuck {k : BlockIdx → UnitIdx → Reply} {f : Fault} (h : withUnit s k = .stuck f) :
    ∃ b u, k b u = .stuck f := by
  unfold withUnit at h
  split at h
  · cases h
  · exact ⟨_, _, h⟩

theorem withBlock_done {k : BlockIdx → Reply} (h : withBlock s k = .done t r) :
    ∃ b, s.activeBlock = some b ∧ k b = .done t r := by
  unfold withBlock at h
  split at h
  · cases h
  · rename_i b hb
    exact ⟨b, hb, h⟩

theorem withBlock_stuck {k : BlockIdx → Reply} {f : Fault} (h : withBlock s k = .stuck f) :
    ∃ b, s.activeBlock = some b ∧ k b = .stuck f := by
  unfold withBlock at h
  split at h
  · cases h
  · rename_i b hb
    exact ⟨b, hb, h⟩

/-! ## The commands -/

theorem selectBlock_done {n : Nat} (h : selectBlock n s = .done t r) :
    ∃ b : BlockIdx, b.val = n ∧ t = { s with activeBlock := some b, activeUnit := none } ∧ r = .ok := by
  unfold selectBlock at h
  split at h
  · rename_i hn
    cases h
    exact ⟨⟨n, hn⟩, rfl, rfl, rfl⟩
  · cases h

theorem selectUnit_done {n : Nat} (h : selectUnit n s = .done t r) :
    ∃ (b : BlockIdx) (u : UnitIdx), u.val = n ∧ s.activeBlock = some b ∧ s.isFinalized b = false ∧
      s.cursor b < Config.capacity ∧ r = .ok ∧
      t = ({ s with activeUnit := some u }).setDesc b u (.selected .building
              ⟨s.cursor b, s.cursor b, s.cursor b, s.cursor b, s.cursor b⟩) := by
  unfold selectUnit at h
  split at h
  · rename_i hn
    obtain ⟨b, hb, h⟩ := withBlock_done h
    simp only at h
    split at h
    · cases h
    · rename_i hf
      split at h
      · cases h
      · rename_i hc
        cases h
        exact ⟨b, ⟨n, hn⟩, rfl, hb, by simpa using hf, by omega, rfl, rfl⟩
  · cases h

theorem mark_done {f : Nat → Offsets → Offsets} (h : mark f s = .done t r) :
    ∃ b u p o, s.activeBlock = some b ∧ s.isFinalized b = false ∧ s.activeUnit = some u ∧
      s.desc b u = .selected p o ∧ s.cursor b < Config.capacity ∧ r = .ok ∧
      t = s.setDesc b u (.selected p (f (s.cursor b) o)) := by
  obtain ⟨b, u, hb, hf, hu, hd, h⟩ := withUnit_done h
  obtain ⟨p, o, hd⟩ := Descriptor.isSelected_iff.mp hd
  simp only at h
  split at h
  · cases h
  · rename_i hc
    cases h
    exact ⟨b, u, p, o, hb, hf, hu, hd, by omega, rfl, by simp [hd, Descriptor.withOffsets]⟩

theorem emit_done {w : Word} (h : emit w s = .done t r) :
    ∃ b u, s.activeBlock = some b ∧ s.isFinalized b = false ∧ s.activeUnit = some u ∧
      (s.desc b u).isSelected = true ∧ s.cursor b < Config.capacity ∧ interleaves s b = false ∧
      r = .value (s.cursor b) ∧
      t = ({ s with buf := s.buf.write (s.cursor b) w, bufOwner := some b }).setBlock b
            { s.block b with cursor := s.cursor b + 1 } := by
  obtain ⟨b, u, hb, hf, hu, hd, h⟩ := withUnit_done h
  simp only at h
  split at h
  · cases h
  · rename_i hc
    split at h
    · cases h
    · rename_i hi
      cases h
      exact ⟨b, u, hb, hf, hu, hd, by omega, by simpa using hi, rfl, rfl⟩

theorem label_done {n : Nat} (h : label n s = .done t r) :
    ∃ b, s.activeBlock = some b ∧ t = s ∧ r = .value (s.cursor b + n) := by
  obtain ⟨b, hb, h⟩ := withBlock_done h
  cases h
  exact ⟨b, hb, rfl, rfl⟩

theorem configure_done (h : configure s = .done t r) :
    ∃ b u p o, s.activeBlock = some b ∧ s.isFinalized b = false ∧ s.activeUnit = some u ∧
      s.desc b u = .selected p o ∧ r = .ok ∧ t = s.setDesc b u (.selected .configured o) := by
  obtain ⟨b, u, hb, hf, hu, hd, h⟩ := withUnit_done h
  obtain ⟨p, o, hd⟩ := Descriptor.isSelected_iff.mp hd
  simp only [hd] at h
  cases h
  exact ⟨b, u, p, o, hb, hf, hu, hd, rfl, rfl⟩

theorem startsOf_some {k : Block} {us : List UnitIdx} {l : List (UnitIdx × Nat)} (h : startsOf k us = some l) :
    (∀ u ∈ us, (k.descOf u).finalOffsets.isSome = true) ∧ l.map Prod.fst = us := by
  induction us generalizing l with
  | nil => cases h; simp
  | cons u rest ih =>
    unfold startsOf at h
    split at h
    · rename_i o l' ho hl
      cases h
      obtain ⟨h1, h2⟩ := ih hl
      simp [ho, h2]
      exact h1
    · cases h
    · cases h

theorem enable_done {m : Nat} (h : enable m s = .done t r) :
    ∃ b starts, m ≠ 0 ∧ m < 2 ^ Config.numUnits ∧ s.activeBlock = some b ∧ s.isFinalized b = true ∧
      startsOf (s.block b) (maskUnits m) = some starts ∧ r = .ok ∧
      t = ({ s with
              outputs := s.outputs ++ [Output.enable b (BitVec.ofNat Config.numUnits m) starts] }).setBlock b
            { s.block b with enabled := (s.block b).enabled ||| BitVec.ofNat Config.numUnits m } := by
  unfold enable at h
  split at h
  · cases h
  · rename_i hm
    obtain ⟨b, hb, h⟩ := withBlock_done h
    simp only at h
    split at h
    · rename_i hf
      split at h
      · cases h
      · rename_i starts hs
        cases h
        exact ⟨b, starts, by omega, by omega, hb, hf, hs, rfl, rfl⟩
    · cases h

theorem list_done {n : Nat} (h : list n s = .done t r) : t = s ∧ ∃ ls, r = .lines ls := by
  unfold list at h
  repeat' split at h
  all_goals first | (cases h; exact ⟨rfl, _, rfl⟩) | cases h

theorem list_raises_nothing {n : Nat} {e : ErrorCode} : list n s ≠ .raise e := by
  intro h
  unfold list at h
  repeat' split at h
  all_goals cases h

/-! ## FINALIZE -/

/-- Everything reading the first `n` buffer words can answer. -/
theorem bufferWords_ok {m : Memory} {n : Nat} {ws : List Word} (h : bufferWords m n = .ok ws) :
    ws.length = n ∧ n ≤ Config.capacity ∧ ∀ i, i < n → m.lookup i = ws[i]? := by
  induction n generalizing ws with
  | zero => cases h; simp
  | succ i ih =>
    unfold bufferWords at h
    split at h
    · cases h
    · rename_i ws' hws
      split at h
      · cases h
      · rename_i w hw
        cases h
        obtain ⟨hlen, -, hread⟩ := ih hws
        obtain ⟨hi, hl⟩ := Memory.read_ok hw
        refine ⟨by simp [hlen], by omega, fun j hj => ?_⟩
        by_cases e : j = i
        · subst e
          rw [hl, List.getElem?_append_right (by omega)]
          simp [hlen]
        · rw [hread j (by omega), List.getElem?_append_left (by omega)]

/-- The words are read when every cell is written. -/
theorem bufferWords_of_lookup {m : Memory} {n : Nat} {ws : List Word} (hlen : ws.length = n)
    (hn : n ≤ Config.capacity) (h : ∀ i, i < n → m.lookup i = ws[i]?) : bufferWords m n = .ok ws := by
  subst hlen
  induction ws using List.reverseRecOn with
  | nil => rfl
  | append_singleton ws w ih =>
    have hlen : (ws ++ [w]).length = ws.length + 1 := by simp
    rw [hlen] at hn h ⊢
    unfold bufferWords
    rw [ih (by omega) fun i hi => by rw [h i (by omega), List.getElem?_append_left hi]]
    have hw : m.lookup ws.length = some w := by
      rw [h _ (by omega)]; simp
    simp only [Memory.read_of_lookup _ (by omega : ws.length < Config.capacity) hw]

/-- Reading the words fails only on a cell that is not written, or past the capacity. -/
theorem bufferWords_error {m : Memory} {n : Nat} {f : Fault} (h : bufferWords m n = .error f) :
    ∃ i, i < n ∧ (Config.capacity ≤ i ∨ m.lookup i = none) := by
  induction n with
  | zero => cases h
  | succ i ih =>
    unfold bufferWords at h
    split at h
    · rename_i hws
      cases h
      obtain ⟨j, hj, hj'⟩ := ih hws
      exact ⟨j, by omega, hj'⟩
    · split at h
      · rename_i hr
        refine ⟨i, by omega, ?_⟩
        unfold Memory.read at hr
        split at hr
        · exact .inl ‹_›
        · split at hr
          · exact .inr ‹_›
          · cases hr
      · cases h

/-- The image after the copy: the words at their indices, the rest as before. -/
theorem Memory.lookup_writeFrom (m : Memory) (i : Nat) (ws : List Word) (j : Nat) :
    (m.writeFrom i ws).lookup j = if i ≤ j ∧ j < i + ws.length then ws[j - i]? else m.lookup j := by
  induction ws generalizing m i with
  | nil =>
    have : ¬ (i ≤ j ∧ j < i) := by omega
    simp [Memory.writeFrom, this]
  | cons w rest ih =>
    simp only [Memory.writeFrom, ih, Memory.lookup_write, List.length_cons]
    by_cases e : j = i
    · subst e; simp
    · by_cases h : i ≤ j ∧ j < i + (rest.length + 1)
      · have h' : i + 1 ≤ j ∧ j < i + 1 + rest.length := by omega
        have hsub : j - i = (j - (i + 1)) + 1 := by omega
        simp only [if_pos h, if_pos h', hsub, List.getElem?_cons_succ]
      · have h' : ¬ (i + 1 ≤ j ∧ j < i + 1 + rest.length) := by omega
        simp only [if_neg h, if_neg h', if_neg e]

theorem Memory.writeFrom_wf {m : Memory} (h : m.wf = true) {i : Nat} (ws : List Word)
    (hi : i + ws.length ≤ Config.capacity) : (m.writeFrom i ws).wf = true := by
  induction ws generalizing m i with
  | nil => exact h
  | cons w rest ih =>
    simp only [List.length_cons] at hi
    exact ih (Memory.write_wf h (by omega) w) (by omega)

/-- The `MemWrite` outputs are the words with their indices. -/
theorem memWrites_eq (b : BlockIdx) (i : Nat) (ws : List Word) :
    memWrites b i ws = (ws.zipIdx i).map fun p => .memWrite b p.2 p.1 := by
  induction ws generalizing i with
  | nil => rfl
  | cons w rest ih => simp [memWrites, ih]

theorem mem_allUnits (u : UnitIdx) : u ∈ allUnits := by
  revert u; decide

/-- Everything a FINALIZE that is done did. -/
theorem finalize_done (h : finalize s = .done t r) :
    ∃ b ws, s.activeBlock = some b ∧ s.isFinalized b = false ∧
      (∀ u, finalizable (s.cursor b) (s.desc b u) = true) ∧ bufferWords s.buf (s.cursor b) = .ok ws ∧
      r = .value (s.cursor b) ∧ t = s.loadBlock b ws := by
  obtain ⟨b, hb, h⟩ := withBlock_done h
  simp only at h
  split at h
  · cases h
  · rename_i hf
    split at h
    · rename_i hall
      split at h
      · cases h
      · rename_i ws hws
        cases h
        exact ⟨b, ws, hb, by simpa using hf, fun u => List.all_eq_true.mp hall u (mem_allUnits u), hws, rfl, rfl⟩
    · cases h

/-- FINALIZE gets stuck only on a cell below its cursor that is not written, or a cursor past the capacity. -/
theorem finalize_stuck {f : Fault} (h : finalize s = .stuck f) :
    ∃ b, s.activeBlock = some b ∧ s.isFinalized b = false ∧ bufferWords s.buf (s.cursor b) = .error f := by
  obtain ⟨b, hb, h⟩ := withBlock_stuck h
  simp only at h
  split at h
  · cases h
  · rename_i hf
    split at h
    · split at h
      · rename_i f' hc
        cases h
        exact ⟨b, hb, by simpa using hf, hc⟩
      · cases h
    · cases h

/-! ## LIST -/

theorem listFrom_error {b : BlockIdx} {m : Memory} {o : Offsets} {is : List Nat} {f : Fault}
    (h : listFrom b m o is = .error f) : ∃ i ∈ is, Config.capacity ≤ i ∨ m.lookup i = none := by
  induction is with
  | nil => cases h
  | cons i rest ih =>
    unfold listFrom at h
    split at h
    · rename_i f' hr
      refine ⟨i, by simp, ?_⟩
      unfold Memory.read at hr
      split at hr
      · exact .inl ‹_›
      · split at hr
        · exact .inr ‹_›
        · cases hr
    · split at h
      · rename_i hrest
        cases h
        obtain ⟨j, hj, hj'⟩ := ih hrest
        exact ⟨j, List.mem_cons_of_mem _ hj, hj'⟩
      · cases h

theorem listFrom_of_lookup {b : BlockIdx} {m : Memory} {o : Offsets} {is : List Nat} {g : Nat → Word}
    (h : ∀ i ∈ is, i < Config.capacity ∧ m.lookup i = some (g i)) :
    listFrom b m o is = .ok (is.flatMap fun i => listLines o i (g i)) := by
  induction is with
  | nil => rfl
  | cons i rest ih =>
    obtain ⟨hi, hl⟩ := h i (by simp)
    unfold listFrom
    rw [Memory.read_of_lookup _ hi hl]
    simp only [ih fun j hj => h j (List.mem_cons_of_mem _ hj)]
    simp

theorem list_stuck {n : Nat} {f : Fault} (h : list n s = .stuck f) :
    ∃ b u o, s.activeBlock = some b ∧ s.isFinalized b = true ∧ (s.desc b u).finalOffsets = some o ∧
      listFrom b (s.block b).imem o o.indices = .error f := by
  unfold list at h
  split at h
  · cases h
  · rename_i b hb
    split at h
    · rename_i hn
      split at h
      · rename_i hf
        split at h
        · cases h
        · rename_i o ho
          split at h
          · rename_i f' hl
            cases h
            exact ⟨b, ⟨n, hn⟩, o, hb, hf, ho, hl⟩
          · cases h
      · cases h
    · cases h

end Sys2Proof.Machine
end

