-- ==== Sys2Proof/Laws/PerInstr.lean ====
section
/-!
SUPPORT. A law stated per instruction form: the word of every instruction record, operands in range or not, carries
the form's class in bits 15:13 (spec/30_encoding.md R71) and the masked delay in bits 12:8 (R72, R102).
-/

namespace Sys2Proof

/-- The class of a form (R71). -/
def Form.cls (f : Form) : Nat :=
  match f with
  | .jmp => 0
  | .wait => 1
  | .inp => 2
  | .out => 3
  | .push => 4
  | .pull => 4
  | .movToRx => 4
  | .movFromRx => 4
  | .mov => 5
  | .nop => 5
  | .irq => 6
  | .set => 7

theorem Form.cls_lt (f : Form) : f.cls < 8 := by cases f <;> decide

end Sys2Proof

namespace Sys2Proof.Laws.ClassAndDelay

/-- The class and delay of an encoded record. -/
def Statement (i : Instr) : Prop :=
  field (encode i) 13 3 = i.form.cls ∧ field (encode i) 8 5 = mask 5 i.delay

/-- Every form packs its class and delay alike (R101). -/
theorem of_packWord {i : Instr} {operandByte : Nat} (h : encode i = packWord i.form.cls i.delay operandByte)
    (hb : operandByte < 256) : Statement i :=
  ⟨by rw [h, packWord_class (Form.cls_lt _) hb], by rw [h, packWord_delay (Form.cls_lt _) hb]⟩

theorem jmp (cond addr delay : Nat) : Statement (.jmp cond addr delay) :=
  of_packWord rfl (by simp only [mask]; omega)

theorem wait (pol src index delay : Nat) : Statement (.wait pol src index delay) :=
  of_packWord rfl (by simp only [mask]; omega)

theorem inp (src count delay : Nat) : Statement (.inp src count delay) :=
  of_packWord rfl (by simp only [mask]; omega)

theorem out (dst count delay : Nat) : Statement (.out dst count delay) :=
  of_packWord rfl (by simp only [mask]; omega)

theorem push (ifFull block delay : Nat) : Statement (.push ifFull block delay) :=
  of_packWord rfl (by simp only [mask]; omega)

theorem pull (ifEmpty block delay : Nat) : Statement (.pull ifEmpty block delay) :=
  of_packWord rfl (by simp only [mask]; omega)

theorem movToRx (idxImm index delay : Nat) : Statement (.movToRx idxImm index delay) :=
  of_packWord rfl (by simp only [mask]; omega)

theorem movFromRx (idxImm index delay : Nat) : Statement (.movFromRx idxImm index delay) :=
  of_packWord rfl (by simp only [mask]; omega)

theorem mov (dst op src delay : Nat) : Statement (.mov dst op src delay) :=
  of_packWord rfl (by simp only [mask]; omega)

theorem nop (delay : Nat) : Statement (.nop delay) :=
  of_packWord (operandByte := 0x42) rfl (by decide)

theorem irq (clearBit waitBit index delay : Nat) : Statement (.irq clearBit waitBit index delay) :=
  of_packWord rfl (by simp only [mask]; omega)

theorem set (dst data delay : Nat) : Statement (.set dst data delay) :=
  of_packWord rfl (by simp only [mask]; omega)

end Sys2Proof.Laws.ClassAndDelay
end

