-- ==== Sys2Proof/Laws/Step.lean ====
section
/-!
SUPPORT. What a step is for each kind of request, and everything a step that answers did.
-/

namespace Sys2Proof.Machine

variable {s t : State}

theorem step_idle (h : s.requests = []) : step s = .next s := by simp [step, h]

theorem step_of_request {q : Request} {rest : List Request} (h : s.requests = q :: rest) :
    step s = serve q (s.accept q rest) := by simp [step, h]

/-- The meaning of an instruction record is one codec transaction on it, with its word and its rendering. -/
theorem exec_eq (i : Instr) (s : State) : exec i s = codecTransaction i (encode i) (render i) s := by
  cases i <;> rfl

/-- With no DECODE in progress an instruction's meaning answers its word. -/
theorem exec_encode (i : Instr) (h : s.decoding = none) : exec i s = .next (s.respond (.word (encode i))) := by
  rw [exec_eq, codecTransaction_encode _ _ _ h]

/-- In a DECODE an instruction's meaning answers the structured mnemonic. -/
theorem exec_decode (i : Instr) {a : DecodeArgs} (h : s.decoding = some a) :
    exec i s = .next (s.respond (.mnemonic (mnemonicOf i (render i a.origin) a.word))) := by
  rw [exec_eq, codecTransaction_decode _ _ _ h]

/-- The command of a calculator request. -/
def commandOf (q : Request) : State → Reply :=
  match q with
  | .selectBlock b => selectBlock b
  | .selectUnit u => selectUnit u
  | .markStart => markStart
  | .markWrapBottom => markWrapBottom
  | .markWrapTop => markWrapTop
  | .markEnd => markEnd
  | .emit w => emit w
  | .label n => label n
  | .configure => configure
  | .finalize => finalize
  | .enable m => enable m
  | .list u => list u
  | .encode _ => fun s => .done s .ok
  | .decode _ _ => fun s => .done s .ok
  | .sessionStart => fun s => .done s .ok
  | .concurrent => fun s => .done s .ok

/-- A command that is done keeps the status, the stream, the answers given and the DECODE at hand, and its response is
no error code. -/
theorem commandOf_done_frame {q : Request} {r : Response} (h : commandOf q s = .done t r) :
    t.status = s.status ∧ t.requests = s.requests ∧ t.responses = s.responses ∧ t.decoding = s.decoding ∧
      ∀ code, r ≠ .error code := by
  cases q with
  | encode i => cases h; simp
  | decode w o => cases h; simp
  | sessionStart => cases h; simp
  | concurrent => cases h; simp
  | selectBlock n => obtain ⟨b, -, rfl, rfl⟩ := selectBlock_done h; simp
  | selectUnit n => obtain ⟨b, u, -, -, -, -, rfl, rfl⟩ := selectUnit_done h; simp
  | markStart =>
    obtain ⟨b, u, p, o, -, -, -, -, -, rfl, rfl⟩ := mark_done (f := fun c o => { o with start := c }) h
    simp
  | markWrapBottom =>
    obtain ⟨b, u, p, o, -, -, -, -, -, rfl, rfl⟩ := mark_done (f := fun c o => { o with wrapBottom := c }) h
    simp
  | markWrapTop =>
    obtain ⟨b, u, p, o, -, -, -, -, -, rfl, rfl⟩ :=
      mark_done (f := fun c o => { o with wrapTop := c, endAt := c }) h
    simp
  | markEnd =>
    obtain ⟨b, u, p, o, -, -, -, -, -, rfl, rfl⟩ := mark_done (f := fun c o => { o with endAt := c }) h
    simp
  | emit w => obtain ⟨b, u, -, -, -, -, -, -, rfl, rfl⟩ := emit_done h; simp
  | label n => obtain ⟨b, -, rfl, rfl⟩ := label_done h; simp
  | configure => obtain ⟨b, u, p, o, -, -, -, -, rfl, rfl⟩ := configure_done h; simp
  | finalize => obtain ⟨b, ws, -, -, -, -, rfl, rfl⟩ := finalize_done h; simp
  | enable m => obtain ⟨b, starts, -, -, -, -, -, rfl, rfl⟩ := enable_done h; simp
  | list n => obtain ⟨rfl, ls, rfl⟩ := list_done h; simp

/-- Everything a request can be: the codec's, SESSION_START, the calculator's, or a second requester's. -/
theorem serve_cases (q : Request) (s : State) :
    (∃ i, q = .encode i ∧ serve q s = exec i s) ∨
    (∃ w o, q = .decode w o ∧ serve q s = exec (decodeWord w) s) ∨
    (q = .sessionStart ∧ serve q s = .next s.sessionStart) ∨
    (q = .concurrent ∧ serve q s = .refused .secondRequester) ∨
    serve q s = calculator (commandOf q) s := by
  cases q <;> simp [serve, commandOf]

/-- Everything a step that serves a request and answers did: a codec answer, a session start, a refusal of an
aborted session, a raised error, or a command done. -/
theorem step_next_cases {q : Request} {rest : List Request} (h : s.requests = q :: rest) (hn : step s = .next t) :
    (((∃ i, q = .encode i) ∨ (∃ w o, q = .decode w o)) ∧
      ∃ r, r.code = 0 ∧ t = (s.accept q rest).respond r) ∨
    (q = .sessionStart ∧ t = (s.accept q rest).sessionStart) ∨
    ((∃ e, s.status = .aborted e) ∧ t = (s.accept q rest).refuseAborted) ∨
    (s.status = .running ∧ ∃ e, commandOf q (s.accept q rest) = .raise e ∧ t = (s.accept q rest).abort e) ∨
    (s.status = .running ∧
      ∃ t' r, commandOf q (s.accept q rest) = .done t' r ∧ t = t'.respond r ∧
        serve q (s.accept q rest) = calculator (commandOf q) (s.accept q rest)) := by
  rw [step_of_request h] at hn
  rcases serve_cases q (s.accept q rest) with ⟨i, rfl, hs⟩ | ⟨w, o, rfl, hs⟩ | ⟨rfl, hs⟩ | ⟨rfl, hs⟩ | hs
  · rw [hs, exec_encode _ (by rfl)] at hn
    cases hn
    exact .inl ⟨.inl ⟨i, rfl⟩, _, rfl, rfl⟩
  · rw [hs, exec_decode _ (by rfl)] at hn
    cases hn
    exact .inl ⟨.inr ⟨w, o, rfl⟩, _, rfl, rfl⟩
  · rw [hs] at hn
    cases hn
    exact .inr (.inl ⟨rfl, rfl⟩)
  · rw [hs] at hn
    cases hn
  · have hs' := hs
    rw [hs] at hn
    rcases calculator_cases (commandOf q) (s.accept q rest) with
      ⟨e, he, hc⟩ | ⟨hr, ⟨t', r, hd, hc⟩ | ⟨e, hd, hc⟩ | ⟨f, hd, hc⟩⟩
    · rw [hc] at hn
      cases hn
      exact .inr (.inr (.inl ⟨⟨e, he⟩, rfl⟩))
    · rw [hc] at hn
      cases hn
      exact .inr (.inr (.inr (.inr ⟨hr, t', r, hd, rfl, hs'⟩)))
    · rw [hc] at hn
      cases hn
      exact .inr (.inr (.inr (.inl ⟨hr, e, hd, rfl⟩)))
    · rw [hc] at hn
      cases hn

end Sys2Proof.Machine
end

