-- ==== Sys2Proof/Tests/Slice0.lean ====
section
/-!
SUPPORT. Tests. The words and texts of the codec come from spec/95_test_vectors.md sections 1 and 2 or are written
out from the formats of spec/30_encoding.md; the commands' results from its section 3 and from spec/43_builder.md.
A theorem whose name ends in `_witness` shows states and operands that meet the hypotheses of the obligation it is
named after, clause by clause.
-/

namespace Sys2Proof.Tests

open Sys2Proof Sys2Proof.Machine

/-! ## Well-formedness: each check refuses a term -/

theorem test_wf_jmp : ¬ (Instr.jmp 8 0 0).WellFormed ∧ ¬ (Instr.jmp 0 32 0).WellFormed ∧
    ¬ (Instr.jmp 0 0 32).WellFormed ∧ (Instr.jmp 7 31 31).WellFormed := by decide

theorem test_wf_wait : ¬ (Instr.wait 2 0 0 0).WellFormed ∧ ¬ (Instr.wait 0 4 0 0).WellFormed ∧
    ¬ (Instr.wait 0 0 32 0).WellFormed ∧ ¬ (Instr.wait 0 0 0 32).WellFormed ∧
    (Instr.wait 1 3 31 31).WellFormed := by decide

theorem test_wf_in_out : ¬ (Instr.inp 8 0 0).WellFormed ∧ ¬ (Instr.inp 0 32 0).WellFormed ∧
    ¬ (Instr.inp 0 0 32).WellFormed ∧ ¬ (Instr.out 8 0 0).WellFormed ∧ ¬ (Instr.out 0 32 0).WellFormed ∧
    ¬ (Instr.out 0 0 32).WellFormed ∧ (Instr.inp 7 31 31).WellFormed ∧ (Instr.out 7 31 31).WellFormed := by decide

theorem test_wf_push_pull : ¬ (Instr.push 2 0 0).WellFormed ∧ ¬ (Instr.push 0 2 0).WellFormed ∧
    ¬ (Instr.push 0 0 32).WellFormed ∧ ¬ (Instr.pull 2 0 0).WellFormed ∧ ¬ (Instr.pull 0 2 0).WellFormed ∧
    ¬ (Instr.pull 0 0 32).WellFormed ∧ (Instr.push 1 1 31).WellFormed ∧ (Instr.pull 1 1 31).WellFormed := by decide

theorem test_wf_mov_indexed : ¬ (Instr.movToRx 2 0 0).WellFormed ∧ ¬ (Instr.movToRx 0 4 0).WellFormed ∧
    ¬ (Instr.movToRx 0 0 32).WellFormed ∧ ¬ (Instr.movFromRx 2 0 0).WellFormed ∧
    ¬ (Instr.movFromRx 0 4 0).WellFormed ∧ ¬ (Instr.movFromRx 0 0 32).WellFormed ∧
    (Instr.movToRx 1 3 31).WellFormed ∧ (Instr.movFromRx 1 3 31).WellFormed := by decide

theorem test_wf_mov_nop : ¬ (Instr.mov 8 0 0 0).WellFormed ∧ ¬ (Instr.mov 0 4 0 0).WellFormed ∧
    ¬ (Instr.mov 0 0 8 0).WellFormed ∧ ¬ (Instr.mov 0 0 0 32).WellFormed ∧ ¬ (Instr.mov 2 0 2 0).WellFormed ∧
    ¬ (Instr.nop 32).WellFormed ∧ (Instr.mov 7 3 7 31).WellFormed ∧ (Instr.nop 31).WellFormed := by decide

theorem test_wf_irq_set : ¬ (Instr.irq 2 0 0 0).WellFormed ∧ ¬ (Instr.irq 0 2 0 0).WellFormed ∧
    ¬ (Instr.irq 0 0 32 0).WellFormed ∧ ¬ (Instr.irq 0 0 0 32).WellFormed ∧ ¬ (Instr.set 8 0 0).WellFormed ∧
    ¬ (Instr.set 0 32 0).WellFormed ∧ ¬ (Instr.set 0 0 32).WellFormed ∧ (Instr.irq 1 1 31 31).WellFormed ∧
    (Instr.set 7 31 31).WellFormed := by decide

/-! ## States for the tests -/

/-- The state at power-on with requests waiting. -/
def asked (qs : List Request) : State := { State.reset with requests := qs }

/-- An aborted session with requests waiting (vector V1 and on). -/
def abortedThen (qs : List Request) : State :=
  { State.reset with status := .aborted .noBlockSelected, requests := qs }

/-- `n` cells of `nop`. -/
def nops (n : Nat) : Memory := (List.range n).map fun i => (i, 0xA042)

/-- Block 0 selected, `c` words emitted into it, unit 0's descriptor `d`, finalized or not. -/
def built (c : Nat) (d : Descriptor) (finalized : Bool) (unit : Option UnitIdx) (qs : List Request) : State :=
  { State.reset with
    activeBlock := some 0
    activeUnit := unit
    blocks := State.reset.blocks.set 0
      { cursor := c
        desc := Block.fresh.desc.set 0 d
        finalized := finalized
        imem := if finalized then nops c else []
        enabled := 0 }
    buf := nops c
    bufOwner := if c = 0 then none else some 0
    requests := qs }

/-- Unit 0 of block 0 being built from index 0, `c` words emitted so far. -/
def building (c : Nat) (qs : List Request) : State :=
  built c (.selected .building ⟨0, 0, 0, 0, 0⟩) false (some 0) qs

/-- Unit 0 of block 0 finalized, with `c` words. -/
def loaded (c : Nat) (qs : List Request) : State :=
  built c (.selected .finalized ⟨0, 0, 0, 0, 0⟩) true (some 0) qs

/-- Block 1 and its unit 0 selected while block 0, with `c` words, owns the staging buffer. -/
def interleaved (c : Nat) (qs : List Request) : State :=
  { building c qs with
    activeBlock := some 1
    blocks := (building c qs).blocks.set 1
      { Block.fresh with desc := Block.fresh.desc.set 0 (.selected .building ⟨0, 0, 0, 0, 0⟩) } }

/-- The state after a step that answers. -/
def after (s : State) : State :=
  match step s with
  | .next t => t
  | .fault _ => s
  | .refused _ => s

/-! ## Decoding, encoding and text, form by form -/

theorem test_jmp_decodes :
    decodeWord 0b0000011111100100#16 = .jmp 7 4 7 ∧ encode (.jmp 8 5 32) = 0x0005 := by decide

theorem test_JmpEncodesAndDecodes_witness :
    (asked []).decoding = none ∧ (∀ w : Word, (asked [.decode w 31]).requests = .decode w 31 :: []) ∧
    (0x0000#16).extractLsb' 13 3 = 0b000 ∧
    (0x1FFF#16).extractLsb' 13 3 = 0b000 ∧
    (decodeMnemonic 0x1FE0 31).text = "jmp !osre, -31 [31]" ∧
    (decodeMnemonic 0x0005 2).text = "jmp 3" :=
  ⟨rfl, fun _ => rfl, by decide, by decide, rfl, rfl⟩

theorem test_wait_decodes :
    decodeWord 0b0010000011010011#16 = .wait 1 2 19 0 ∧ encode (.wait 2 4 37 0) = 0x2005 := by decide

theorem test_WaitEncodesAndDecodes_witness :
    (asked []).decoding = none ∧ (∀ w : Word, (asked [.decode w 31]).requests = .decode w 31 :: []) ∧
    (0x2000#16).extractLsb' 13 3 = 0b001 ∧
    (0x3FFF#16).extractLsb' 13 3 = 0b001 ∧
    (decodeMnemonic 0x2059 0).text = "wait 0 irq next 1" ∧
    (decodeMnemonic 0x21E1 0).text = "wait 1 jmppin 1 [1]" :=
  ⟨rfl, fun _ => rfl, by decide, by decide, rfl, rfl⟩

theorem test_in_decodes :
    decodeWord 0b0100000001101000#16 = .inp 3 8 0 ∧ encode (.inp 1 32 0) = 0x4020 := by decide

theorem test_InEncodesAndDecodes_witness :
    (asked []).decoding = none ∧ (∀ w : Word, (asked [.decode w 31]).requests = .decode w 31 :: []) ∧
    (0x4000#16).extractLsb' 13 3 = 0b010 ∧
    (0x5FFF#16).extractLsb' 13 3 = 0b010 ∧
    (decodeMnemonic 0x40E0 0).text = "in osr, 32" ∧
    (decodeMnemonic 0x40A3 0).text = "in reserved, 3" :=
  ⟨rfl, fun _ => rfl, by decide, by decide, rfl, rfl⟩

theorem test_out_decodes :
    decodeWord 0b0111111101000100#16 = .out 2 4 31 ∧ encode (.out 1 32 0) = 0x6020 := by decide

theorem test_OutEncodesAndDecodes_witness :
    (asked []).decoding = none ∧ (∀ w : Word, (asked [.decode w 31]).requests = .decode w 31 :: []) ∧
    (0x6000#16).extractLsb' 13 3 = 0b011 ∧
    (0x7FFF#16).extractLsb' 13 3 = 0b011 ∧
    (decodeMnemonic 0x60A5 0).text = "out pc, 5" ∧
    (decodeMnemonic 0x7F44 0).text = "out y, 4 [31]" :=
  ⟨rfl, fun _ => rfl, by decide, by decide, rfl, rfl⟩

theorem test_push_decodes :
    decodeWord 0b1000001101000000#16 = .push 1 0 3 ∧ encode (.push 0 1 0) = 0x8020 := by decide

theorem test_PushEncodesAndDecodes_witness :
    (asked []).decoding = none ∧ (∀ w : Word, (asked [.decode w 31]).requests = .decode w 31 :: []) ∧
    (0x8000#16).extractLsb' 13 3 = 0b100 ∧ (0x8000#16).extractLsb' 4 1 = 0 ∧ (0x8000#16).extractLsb' 7 1 = 0 ∧
    (0x9F6F#16).extractLsb' 13 3 = 0b100 ∧ (0x9F6F#16).extractLsb' 4 1 = 0 ∧ (0x9F6F#16).extractLsb' 7 1 = 0 ∧
    (decodeMnemonic 0x800F 0).text = "push noblock" ∧
    (decodeMnemonic 0x8060 0).text = "push iffull block" :=
  ⟨rfl, fun _ => rfl, by decide, by decide, by decide, by decide, by decide, by decide, rfl, rfl⟩

theorem test_pull_decodes :
    decodeWord 0b1000000010100000#16 = .pull 0 1 0 ∧ encode (.pull 1 0 0) = 0x80C0 := by decide

theorem test_PullEncodesAndDecodes_witness :
    (asked []).decoding = none ∧ (∀ w : Word, (asked [.decode w 31]).requests = .decode w 31 :: []) ∧
    (0x8080#16).extractLsb' 13 3 = 0b100 ∧ (0x8080#16).extractLsb' 4 1 = 0 ∧ (0x8080#16).extractLsb' 7 1 = 1 ∧
    (0x9FEF#16).extractLsb' 13 3 = 0b100 ∧ (0x9FEF#16).extractLsb' 4 1 = 0 ∧ (0x9FEF#16).extractLsb' 7 1 = 1 ∧
    (decodeMnemonic 0x808F 0).text = "pull noblock" ∧
    (decodeMnemonic 0x80E0 0).text = "pull ifempty block" :=
  ⟨rfl, fun _ => rfl, by decide, by decide, by decide, by decide, by decide, by decide, rfl, rfl⟩

theorem test_movToRx_decodes :
    decodeWord 0b1000000000011010#16 = .movToRx 1 2 0 ∧ encode (.movToRx 1 7 0) = 0x801B := by decide

theorem test_MovToRxEncodesAndDecodes_witness :
    (asked []).decoding = none ∧ (∀ w : Word, (asked [.decode w 31]).requests = .decode w 31 :: []) ∧
    (0x8010#16).extractLsb' 13 3 = 0b100 ∧ (0x8010#16).extractLsb' 4 1 = 1 ∧ (0x8010#16).extractLsb' 7 1 = 0 ∧
    (0x9F7F#16).extractLsb' 13 3 = 0b100 ∧ (0x9F7F#16).extractLsb' 4 1 = 1 ∧ (0x9F7F#16).extractLsb' 7 1 = 0 ∧
    (decodeMnemonic 0x8013 0).text = "mov rxfifo[y], isr" ∧
    (decodeMnemonic 0x801F 0).text = "mov rxfifo[3], isr" :=
  ⟨rfl, fun _ => rfl, by decide, by decide, by decide, by decide, by decide, by decide, rfl, rfl⟩

theorem test_movFromRx_decodes :
    decodeWord 0b1000010110011011#16 = .movFromRx 1 3 5 ∧ encode (.movFromRx 0 0 0) = 0x8090 := by decide

theorem test_MovFromRxEncodesAndDecodes_witness :
    (asked []).decoding = none ∧ (∀ w : Word, (asked [.decode w 31]).requests = .decode w 31 :: []) ∧
    (0x8090#16).extractLsb' 13 3 = 0b100 ∧ (0x8090#16).extractLsb' 4 1 = 1 ∧ (0x8090#16).extractLsb' 7 1 = 1 ∧
    (0x9FFF#16).extractLsb' 13 3 = 0b100 ∧ (0x9FFF#16).extractLsb' 4 1 = 1 ∧ (0x9FFF#16).extractLsb' 7 1 = 1 ∧
    (decodeMnemonic 0x80F4 0).text = "mov osr, rxfifo[y]" ∧
    (decodeMnemonic 0x859B 0).text = "mov osr, rxfifo[3] [5]" :=
  ⟨rfl, fun _ => rfl, by decide, by decide, by decide, by decide, by decide, by decide, rfl, rfl⟩

theorem test_mov_decodes :
    decodeWord 0b1010000010101011#16 = .mov 5 1 3 0 ∧ encode (.mov 2 1 2 0) = 0xA04A := by decide

theorem test_MovEncodesAndDecodes_witness :
    (asked []).decoding = none ∧ (∀ w : Word, (asked [.decode w 31]).requests = .decode w 31 :: []) ∧
    (0xA000#16).extractLsb' 13 3 = 0b101 ∧ (0xA000#16).extractLsb' 0 8 ≠ 0x42 ∧
    (0xA041#16).extractLsb' 13 3 = 0b101 ∧ (0xA041#16).extractLsb' 0 8 ≠ 0x42 ∧
    (0xA043#16).extractLsb' 13 3 = 0b101 ∧ (0xA043#16).extractLsb' 0 8 ≠ 0x42 ∧
    (0xBFFF#16).extractLsb' 13 3 = 0b101 ∧ (0xBFFF#16).extractLsb' 0 8 ≠ 0x42 ∧
    (decodeMnemonic 0xA0FC 0).text = "mov osr, ???reserved" ∧
    (decodeMnemonic 0xA016 0).text = "mov pins, ::isr" :=
  ⟨rfl, fun _ => rfl, by decide, by decide, by decide, by decide, by decide, by decide, by decide, by decide, rfl, rfl⟩

theorem test_nop_decodes :
    decodeWord 0b1011111101000010#16 = .nop 31 ∧ encode (.mov 2 0 2 4) = 0xA442 := by decide

theorem test_NopEncodesAndDecodes_witness :
    (asked []).decoding = none ∧ (∀ w : Word, (asked [.decode w 31]).requests = .decode w 31 :: []) ∧
    (0xA042#16).extractLsb' 13 3 = 0b101 ∧ (0xA042#16).extractLsb' 0 8 = 0x42 ∧
    (0xBF42#16).extractLsb' 13 3 = 0b101 ∧ (0xBF42#16).extractLsb' 0 8 = 0x42 ∧
    (decodeMnemonic 0xA042 0).text = "nop" ∧
    (decodeMnemonic 0xA842 3).text = "nop [8]" :=
  ⟨rfl, fun _ => rfl, by decide, by decide, by decide, by decide, rfl, rfl⟩

theorem test_irq_decodes :
    decodeWord 0b1100000000110001#16 = .irq 0 1 17 0 ∧ encode (.irq 1 1 1 0) = 0xC061 := by decide

theorem test_IrqEncodesAndDecodes_witness :
    (asked []).decoding = none ∧ (∀ w : Word, (asked [.decode w 31]).requests = .decode w 31 :: []) ∧
    (0xC000#16).extractLsb' 13 3 = 0b110 ∧
    (0xDFFF#16).extractLsb' 13 3 = 0b110 ∧
    (decodeMnemonic 0xC0FF 0).text = "irq clear next 7" ∧
    (decodeMnemonic 0xC031 0).text = "irq wait 1 rel" :=
  ⟨rfl, fun _ => rfl, by decide, by decide, rfl, rfl⟩

theorem test_set_decodes :
    decodeWord 0b1110100000100101#16 = .set 1 5 8 ∧ encode (.set 9 37 40) = 0xE825 := by decide

theorem test_SetEncodesAndDecodes_witness :
    (asked []).decoding = none ∧ (∀ w : Word, (asked [.decode w 31]).requests = .decode w 31 :: []) ∧
    (0xE000#16).extractLsb' 13 3 = 0b111 ∧
    (0xFFFF#16).extractLsb' 13 3 = 0b111 ∧
    (decodeMnemonic 0xFFFF 0).text = "set reserved, 31 [31]" ∧
    (decodeMnemonic 0xE081 0).text = "set pindirs, 1" :=
  ⟨rfl, fun _ => rfl, by decide, by decide, rfl, rfl⟩

/-! ## The codec's laws -/

theorem test_DecodeOfEncodeIsTheMaskedRecord_witness :
    (Instr.mov 7 3 7 31).WellFormed ∧ decodeWord (encode (.mov 7 3 7 31)) = .mov 7 3 7 31 := by decide

/-- Section 2.4 of the vectors. -/
theorem test_encode_of_decode :
    encode (decodeWord 0x808F) = 0x8080 ∧ encode (decodeWord 0x80FF) = 0x809B ∧ encode (decodeWord 0xC0FF) = 0xC07F ∧
    encode (decodeWord 0xFFFF) = 0xFFFF ∧ encode (decodeWord 0xA042) = 0xA042 := by decide

/-- `0xA042` matches the rows of `nop` and of `mov`. -/
theorem test_OpcodeMapGivesTheForm_witness :
    ⟨.nop, 0xE0FF, 0xA042⟩ ∈ opcodeMap ∧ (0xA042#16) &&& 0xE0FF = 0xA042 ∧
    ⟨.mov, 0xE000, 0xA000⟩ ∈ opcodeMap ∧ (0xA042#16) &&& 0xE000 = 0xA000 ∧ formOf 0xA042 = .nop := by decide

theorem test_IgnoredBitsAreWrittenZeroAndNotRead_witness :
    (0x80FF#16) &&& ~~~ ignoredMask (formOf 0x80FF) = 0x809B#16 &&& ~~~ ignoredMask (formOf 0x80FF) ∧
    (0x80FF#16) ≠ 0x809B := by decide

/-- A field of every width at its first value past the range, and an ENCODE of such a record in an aborted session. -/
theorem test_EncodeMasksEveryOperand_witness :
    encode (.jmp 9 33 40) = 0x0821 ∧ encode (.set 1 37 0) = 0xE025 ∧
    (abortedThen [.encode (.wait 2 4 32 32)]).requests = .encode (.wait 2 4 32 32) :: [] :=
  ⟨rfl, rfl, rfl⟩

theorem test_StepRunsTheDecodedInstruction_witness :
    (asked [.decode 0xFFFF 31]).requests = .decode 0xFFFF 31 :: [] ∧
    (asked [.encode (.nop 31)]).requests = .encode (.nop 31) :: [] := ⟨rfl, rfl⟩

theorem test_DecodeIsTotalAndReadsClassAndDelayAlike_witness :
    (asked [.decode 0xFFFF 31]).requests = .decode 0xFFFF 31 :: [] ∧ formOf 0x2000 ≠ .jmp ∧ formOf 0x1FFF = .jmp :=
  ⟨rfl, by decide, by decide⟩

theorem test_CodecHasNoErrorsAndNoSideEffects_witness :
    (abortedThen [.encode (.jmp 8 32 32)]).requests = .encode (.jmp 8 32 32) :: [] ∧
    (∃ i, Request.encode (.jmp 8 32 32) = .encode i) ∧
    (abortedThen [.decode 0xFFFF 31]).requests = .decode 0xFFFF 31 :: [] ∧
    (∃ w origin, Request.decode 0xFFFF 31 = .decode w origin) :=
  ⟨rfl, ⟨_, rfl⟩, rfl, ⟨_, _, rfl⟩⟩

/-- The host's placement of a word: the next step decodes it. -/
theorem test_withFetchWord_decodes :
    (after (State.reset.withFetchWord 16 0xE081)).responses = [.mnemonic (decodeMnemonic 0xE081 0)] := rfl

theorem test_decodeTableWord : decodeTableWord 16 0xBF42 = some (.nop 31) ∧ decodeTableWord 16 0xC080 = some (.irq 0 0 0 0) :=
  ⟨rfl, rfl⟩

/-! ## Reset, errors, the session -/

theorem test_ResetHoldsTheSessionStartValues_witness :
    (building 3 [.sessionStart]).requests = .sessionStart :: [] := rfl

/-- Vector V18's recovery, from an aborted session. -/
theorem test_SessionStartRestoresEveryPieceOfState_witness :
    (abortedThen [.sessionStart]).requests = .sessionStart :: [] ∧
    (after (abortedThen [.sessionStart])).status = .running := ⟨rfl, rfl⟩

/-- Vector V17. -/
theorem test_AbortedSessionRefusesEveryCommand_witness :
    (abortedThen [.selectBlock 0]).requests = .selectBlock 0 :: [] ∧ (Request.selectBlock 0).isCommand = true ∧
    (abortedThen [.selectBlock 0]).status = .aborted .noBlockSelected ∧
    (after (abortedThen [.selectBlock 0])).responses = [.error .sessionAborted] := ⟨rfl, rfl, rfl, rfl⟩

/-- Vector V1 for the first clause. -/
theorem test_FirstErrorEndsTheSession_witness :
    (step (asked [.emit 0xA042]) = .next (after (asked [.emit 0xA042])) ∧
      (after (asked [.emit 0xA042])).responses = (asked [.emit 0xA042]).responses ++ [.error .noBlockSelected] ∧
      ErrorCode.noBlockSelected ≠ .sessionAborted) ∧
    ((abortedThen [.list 0]).requests = .list 0 :: [] ∧ (Request.list 0).isCommand = true ∧
      (abortedThen [.list 0]).status = .aborted .noBlockSelected) ∧
    (step (abortedThen [.decode 0 0]) = .next (after (abortedThen [.decode 0 0])) ∧
      (abortedThen [.decode 0 0]).requests.head? ≠ some .sessionStart) :=
  ⟨⟨rfl, rfl, by decide⟩, ⟨rfl, rfl, rfl⟩, rfl, by decide⟩

theorem test_FailingRequestChangesOnlyTheStatus_witness :
    ((asked [.emit 0xA042]).requests = .emit 0xA042 :: [] ∧
      step (asked [.emit 0xA042]) = .next (after (asked [.emit 0xA042])) ∧
      (after (asked [.emit 0xA042])).responses = (asked [.emit 0xA042]).responses ++ [.error .noBlockSelected]) ∧
    ((abortedThen [.list 0]).requests = .list 0 :: [] ∧
      step (abortedThen [.list 0]) = .next (after (abortedThen [.list 0])) ∧
      (after (abortedThen [.list 0])).responses = (abortedThen [.list 0]).responses ++ [.error .sessionAborted]) :=
  ⟨⟨rfl, rfl, rfl⟩, rfl, rfl, rfl⟩

theorem test_OnlyASecondRequesterIsRefused_witness :
    (asked [.concurrent]).requests = .concurrent :: [] ∧ (asked []).requests = [] ∧
    step (asked [.concurrent]) = .refused .secondRequester := ⟨rfl, rfl, rfl⟩

theorem test_ErrorCodesHaveTheTablesValues_witness : ErrorCode.sessionAborted.value = ErrorCode.sessionAborted.value :=
  rfl

/-! ## The commands, clause by clause at the ends of their ranges -/

/-- Vector V2 for the second clause. -/
theorem test_SelectBlockSetsTheBlockAndClearsTheUnit_witness :
    (asked [.selectBlock 2]).requests = .selectBlock 2 :: [] ∧ (asked [.selectBlock 2]).status = .running ∧
    (2 : BlockIdx).val = 2 ∧ (asked [.selectBlock 3]).requests = .selectBlock 3 :: [] ∧ 3 ≤ 3 :=
  ⟨rfl, rfl, rfl, rfl, Nat.le_refl 3⟩

theorem test_SelectUnitCapturesTheCursor_witness :
    ((asked [.selectUnit 4]).requests = .selectUnit 4 :: [] ∧ (asked [.selectUnit 4]).status = .running ∧ 4 ≤ 4) ∧
    ((asked [.selectUnit 3]).requests = .selectUnit 3 :: [] ∧ (3 : UnitIdx).val = 3 ∧
      (asked [.selectUnit 3]).activeBlock = none) ∧
    ((building 31 [.selectUnit 3]).activeBlock = some 0 ∧ (building 31 [.selectUnit 3]).cursor 0 = 31 ∧
      (building 32 [.selectUnit 3]).cursor 0 = 32 ∧ (loaded 31 [.selectUnit 3]).isFinalized 0 = true) :=
  ⟨⟨rfl, rfl, Nat.le_refl 4⟩, ⟨rfl, rfl, rfl⟩, rfl, rfl, rfl, rfl⟩

theorem test_RequireUnitRaisesItsErrorsInOrder_witness :
    ((asked [.markEnd]).requests = .markEnd :: [] ∧ Request.markEnd.needsUnit = true ∧
      (asked [.markEnd]).status = .running ∧ (asked [.markEnd]).activeBlock = none) ∧
    ((loaded 1 [.configure]).activeBlock = some 0 ∧ (loaded 1 [.configure]).isFinalized 0 = true) ∧
    ((built 1 .unselected false none [.emit 0]).isFinalized 0 = false ∧
      (built 1 .unselected false none [.emit 0]).activeUnit = none) ∧
    ((built 1 .unselected false (some 0) [.emit 0]).activeUnit = some 0 ∧
      (built 1 .unselected false (some 0) [.emit 0]).desc 0 0 = .unselected) :=
  ⟨⟨rfl, rfl, rfl, rfl⟩, ⟨rfl, rfl⟩, ⟨rfl, rfl⟩, rfl, rfl⟩

/-- The cursors 31 and 32 are the two sides of the check. -/
theorem test_WrapMarkersRecordTheCursor_witness :
    (building 31 [.markWrapBottom]).status = .running ∧
    (building 31 [.markWrapBottom]).requests = .markWrapBottom :: [] ∧
    (building 32 [.markWrapTop]).requests = .markWrapTop :: [] ∧
    (after (building 31 [.markWrapTop])).desc 0 0 = .selected .building ⟨0, 0, 0, 31, 31⟩ :=
  ⟨rfl, rfl, rfl, rfl⟩

/-- Vector V14 for MARK_END. -/
theorem test_StartAndEndMarkersRecordTheCursor_witness :
    (building 31 [.markStart]).status = .running ∧ (building 31 [.markStart]).requests = .markStart :: [] ∧
    (building 32 [.markEnd]).requests = .markEnd :: [] ∧
    (after (building 32 [.markEnd])).status = .aborted .offsetOutOfRange :=
  ⟨rfl, rfl, rfl, rfl⟩

/-- A full block, an interleaved one (P4), the last cell, and no block. -/
theorem test_EmitStoresOneWordAtTheCursor_witness :
    ((building 32 [.emit 5]).requests = .emit 5 :: [] ∧ (building 32 [.emit 5]).status = .running ∧
      (building 32 [.emit 5]).activeBlock = some 0 ∧ (building 32 [.emit 5]).isFinalized 0 = false ∧
      (building 32 [.emit 5]).activeUnit = some 0 ∧
      (building 32 [.emit 5]).desc 0 0 = .selected .building ⟨0, 0, 0, 0, 0⟩ ∧ 32 ≤ (building 32 [.emit 5]).cursor 0) ∧
    ((interleaved 2 [.emit 5]).activeBlock = some 1 ∧ (interleaved 2 [.emit 5]).cursor 1 < 32 ∧
      (interleaved 2 [.emit 5]).otherOwner 1 ∧
      (after (interleaved 2 [.emit 5])).status = .aborted .bufferInterleave) ∧
    ((building 31 [.emit 5]).cursor 0 < 32 ∧ ¬ (building 31 [.emit 5]).otherOwner 0 ∧
      (after (building 31 [.emit 5])).buf.lookup 31 = some 5 ∧ (after (building 31 [.emit 5])).cursor 0 = 32) ∧
    (asked [.emit 5]).activeBlock = none :=
  ⟨⟨rfl, rfl, rfl, rfl, rfl, rfl, by decide⟩, ⟨rfl, by decide, ⟨0, rfl, by decide, rfl⟩, rfl⟩,
    ⟨by decide, fun ⟨b, hb, hne, _⟩ => hne (Option.some.inj hb).symm, rfl, rfl⟩, rfl⟩

/-- Vector V12, and a label with no block. -/
theorem test_LabelAnswersTheCursorPlusTheDelta_witness :
    (asked [.label 5]).requests = .label 5 :: [] ∧ (asked [.label 5]).status = .running ∧
    (asked [.label 5]).activeBlock = none ∧ (building 32 [.label]).requests = .label 0 :: [] ∧
    (building 32 [.label]).activeBlock = some 0 ∧ (after (building 32 [.label])).responses = [.value 32] :=
  ⟨rfl, rfl, rfl, rfl, rfl, rfl⟩

theorem test_ConfigureMovesTheUnitToConfigured_witness :
    (building 1 [.configure]).requests = .configure :: [] ∧ (building 1 [.configure]).status = .running ∧
    ((after (building 1 [.configure])).desc 0 0).phase? = some .configured := ⟨rfl, rfl, rfl⟩

/-- No block; a finalized block; vector V10's offsets at the cursor; one word loaded. -/
theorem test_FinalizeLoadsTheBlock_witness :
    ((asked [.finalize]).requests = .finalize :: [] ∧ (asked [.finalize]).status = .running ∧
      (asked [.finalize]).activeBlock = none) ∧
    ((loaded 1 [.finalize]).activeBlock = some 0 ∧ (loaded 1 [.finalize]).isFinalized 0 = true) ∧
    ((building 0 [.finalize]).desc 0 0 = .selected .building ⟨0, 0, 0, 0, 0⟩ ∧ (building 0 [.finalize]).cursor 0 = 0 ∧
      (after (building 0 [.finalize])).status = .aborted .descriptorInvariant) ∧
    ((building 1 [.finalize]).isFinalized 0 = false ∧ (building 1 [.finalize]).cursor 0 = [(0xA042 : Word)].length ∧
      (building 1 [.finalize]).buf.lookup 0 = some 0xA042 ∧
      (after (building 1 [.finalize])).outputs = [.memWrite 0 0 0xA042, .wrapBounds 0 0 0 0]) :=
  ⟨⟨rfl, rfl, rfl⟩, ⟨rfl, rfl⟩, ⟨rfl, rfl, rfl⟩, rfl, rfl, rfl, rfl⟩

/-- Vectors V4, V5, V7, V8, and an enable that starts unit 0. -/
theorem test_EnableStartsFinalizedUnits_witness :
    ((asked [.enable 0]).requests = .enable 0 :: [] ∧ (asked [.enable 0]).status = .running ∧ 16 ≤ 16) ∧
    ((asked [.enable 15]).requests = .enable 15 :: [] ∧ (asked [.enable 15]).activeBlock = none) ∧
    ((building 1 [.enable 1]).activeBlock = some 0 ∧ (building 1 [.enable 1]).isFinalized 0 = false) ∧
    ((loaded 1 [.enable 2]).isFinalized 0 = true ∧ Nat.testBit 2 (1 : UnitIdx) = true ∧
      (loaded 1 [.enable 2]).desc 0 1 = .unselected) ∧
    ((∀ u : UnitIdx, Nat.testBit 1 u = true →
        (loaded 1 [.enable 1]).desc 0 u = .selected .finalized ⟨0, 0, 0, 0, 0⟩) ∧
      (after (loaded 1 [.enable 1])).outputs = [.enable 0 1 [(0, 0)]]) :=
  ⟨⟨rfl, rfl, Nat.le_refl 16⟩, ⟨rfl, rfl⟩, ⟨rfl, rfl⟩, ⟨rfl, by decide, rfl⟩, by decide, rfl⟩

/-- No block, a unit out of range, an unbuilt unit, and a built one of one word. -/
theorem test_ListAnswersTheDisassembly_witness :
    ((asked [.list 3]).requests = .list 3 :: [] ∧ (asked [.list 3]).status = .running ∧
      (asked [.list 3]).activeBlock = none ∧ 4 ≤ 4) ∧
    ((building 1 [.list 0]).activeBlock = some 0 ∧ (0 : UnitIdx).val = 0 ∧
      (building 1 [.list 0]).isFinalized 0 = false) ∧
    ((loaded 1 [.list 0]).isFinalized 0 = true ∧
      (loaded 1 [.list 0]).desc 0 0 = .selected .finalized ⟨0, 0, 0, 0, 0⟩ ∧
      ((loaded 1 [.list 0]).block 0).imem.lookup 0 = some 0xA042 ∧
      (after (loaded 1 [.list 0])).responses = [.lines [".start", ".wrap_target", "0: 0xa042 ; nop", ".wrap"]]) :=
  ⟨⟨rfl, rfl, rfl, Nat.le_refl 4⟩, ⟨rfl, rfl, rfl⟩, rfl, rfl, rfl, rfl⟩

theorem test_WrapBoundsLandInExecctrl_witness :
    (31 : Nat) < 32 ∧ (0xFFFE007F#32).extractLsb' 7 10 = 0 ∧
    wrapBoundsInto Config.rp2350WrapLayout 0xFFFE007F 0 31 = 0xFFFFF07F := by decide

/-! ## What every step keeps, and runs -/

theorem test_reset_meets_the_invariant : State.reset.Inv := by decide

theorem test_StepKeepsTheInvariant_witness :
    (building 1 [.emit 5]).Inv ∧ step (building 1 [.emit 5]) = .next (after (building 1 [.emit 5])) :=
  ⟨by decide, rfl⟩

theorem test_InvariantStatesNeverFault_witness : (building 1 [.finalize]).Inv ∧ (loaded 1 [.list 0]).Inv :=
  ⟨by decide, by decide⟩

/-- Outside the invariant: an owner whose cells are not written, and an image that is not. -/
theorem test_faults_outside_the_invariant :
    step { building 1 [.finalize] with buf := [] } = .fault (.unwrittenBuffer 0) ∧
    step (built 1 (.selected .finalized ⟨0, 0, 0, 0, 1⟩) true (some 0) [.list 0]) = .fault (.unwrittenImem 0 1) :=
  ⟨rfl, rfl⟩

theorem test_OnlyEmitMovesACursor_witness :
    (building 31 [.emit 5]).requests = .emit 5 :: [] ∧ Request.emit 5 ≠ .sessionStart ∧
    step (building 31 [.emit 5]) = .next (after (building 31 [.emit 5])) := ⟨rfl, by decide, rfl⟩

theorem test_DescriptorsFollowTheStateMachine_witness :
    (building 1 [.configure]).Inv ∧ (building 1 [.configure]).requests = .configure :: [] ∧
    Request.configure ≠ .sessionStart ∧ step (building 1 [.configure]) = .next (after (building 1 [.configure])) :=
  ⟨by decide, rfl, by decide, rfl⟩

theorem test_OffsetsChangeOnlyByTheirMarkers_witness :
    (building 31 [.markWrapTop]).requests = .markWrapTop :: [] ∧ Request.markWrapTop ≠ .sessionStart ∧
    step (building 31 [.markWrapTop]) = .next (after (building 31 [.markWrapTop])) ∧
    (building 31 [.markWrapTop]).desc 0 0 = .selected .building ⟨0, 0, 0, 0, 0⟩ ∧
    Request.markWrapTop ≠ .selectUnit (0 : UnitIdx).val := ⟨rfl, by decide, rfl, rfl, by decide⟩

theorem test_EachRequestIsOneTransaction_witness :
    (building 1 [.finalize, .enable 1]).requests = .finalize :: [.enable 1] ∧
    step (building 1 [.finalize, .enable 1]) = .next (after (building 1 [.finalize, .enable 1])) := ⟨rfl, rfl⟩

theorem test_FinalizedImageIsFixed_witness :
    (loaded 1 [.finalize]).requests = .finalize :: [] ∧ Request.finalize ≠ .sessionStart ∧
    (loaded 1 [.finalize]).isFinalized 0 = true ∧
    step (loaded 1 [.finalize]) = .next (after (loaded 1 [.finalize])) := ⟨rfl, by decide, rfl, rfl⟩

theorem test_UnfinalizedWordsSurvive_witness :
    (interleaved 2 [.emit 5]).Inv ∧ (interleaved 2 [.emit 5]).requests = .emit 5 :: [] ∧
    Request.emit 5 ≠ .sessionStart ∧ (interleaved 2 [.emit 5]).isFinalized 0 = false ∧
    step (interleaved 2 [.emit 5]) = .next (after (interleaved 2 [.emit 5])) ∧
    1 < (interleaved 2 [.emit 5]).cursor 0 := ⟨by decide, rfl, by decide, rfl, rfl, by decide⟩

theorem test_UnitsAreEnabledOnlyAfterFinalize_witness :
    (loaded 1 [.enable 1]).requests = .enable 1 :: [] ∧ Request.enable 1 ≠ .sessionStart ∧
    step (loaded 1 [.enable 1]) = .next (after (loaded 1 [.enable 1])) ∧
    ((loaded 1 [.enable 1]).block 0).enabled.getLsbD 0 = false ∧
    ((after (loaded 1 [.enable 1])).block 0).enabled.getLsbD 0 = true := ⟨rfl, by decide, rfl, rfl, rfl⟩

/-- The last index a label can reach. -/
theorem test_ForwardLabelIsExact_witness :
    (building 30 [.label 1, .emit 5, .emit 6]).status = .running ∧
    (building 30 [.label 1, .emit 5, .emit 6]).activeBlock = some 0 ∧
    (building 30 [.label 1, .emit 5, .emit 6]).isFinalized 0 = false ∧
    (building 30 [.label 1, .emit 5, .emit 6]).activeUnit = some 0 ∧
    (building 30 [.label 1, .emit 5, .emit 6]).desc 0 0 = .selected .building ⟨0, 0, 0, 0, 0⟩ ∧
    ¬ (building 30 [.label 1, .emit 5, .emit 6]).otherOwner 0 ∧ [(5 : Word), 6].length = 1 + 1 ∧
    (building 30 [.label 1, .emit 5, .emit 6]).cursor 0 + 1 < 32 ∧
    (building 30 [.label 1, .emit 5, .emit 6]).requests = .label 1 :: ([(5 : Word), 6].map Request.emit ++ []) :=
  ⟨rfl, rfl, rfl, rfl, rfl, fun ⟨_, hb, hne, _⟩ => hne (Option.some.inj hb).symm, rfl, by decide, rfl⟩

/-- A session start, vector V1, a request that succeeds, and vector V17. -/
theorem test_StatusHoldsTheFirstError_witness :
    ((abortedThen [.sessionStart]).requests = .sessionStart :: [] ∧
      step (abortedThen [.sessionStart]) = .next (after (abortedThen [.sessionStart]))) ∧
    ((asked [.emit 0xA042]).requests = .emit 0xA042 :: [] ∧ (asked [.emit 0xA042]).status = .running ∧
      step (asked [.emit 0xA042]) = .next (after (asked [.emit 0xA042])) ∧
      (after (asked [.emit 0xA042])).status = .aborted .noBlockSelected) ∧
    ((asked [.selectBlock 2]).status = .running ∧ (after (asked [.selectBlock 2])).status = .running) ∧
    ((abortedThen [.selectBlock 0]).status = .aborted .noBlockSelected ∧ Request.selectBlock 0 ≠ .sessionStart ∧
      step (abortedThen [.selectBlock 0]) = .next (after (abortedThen [.selectBlock 0]))) :=
  ⟨⟨rfl, rfl⟩, ⟨rfl, rfl, rfl, rfl⟩, ⟨rfl, rfl⟩, rfl, by decide, rfl⟩

/-- The two ends of the range, section 2.3 of the vectors for the first. -/
theorem test_RelativeTargetsStayInRange_witness :
    formOf 0x0000 = .jmp ∧ (decodeMnemonic 0x0000 (31 : Origin)).operands = ["", "-31"] ∧
    formOf 0x001F = .jmp ∧ (decodeMnemonic 0x001F (0 : Origin)).operands = ["", "31"] ∧
    (building 31 []).Inv ∧ (building 31 []).desc 0 0 = .selected .building ⟨0, 0, 0, 0, 0⟩ :=
  ⟨rfl, rfl, rfl, rfl, by decide, rfl⟩

/-- Where a short run ends. -/
def ran (n : Nat) (s : State) : State :=
  match runFrom n s with
  | .next t => t
  | .fault _ => s
  | .refused _ => s

theorem test_UnitsOfABlockAreContinuous_witness :
    (building 0 [.selectUnit 0, .emit 5, .selectUnit 3]).activeBlock = some 0 ∧
    (building 0 [.selectUnit 0, .emit 5, .selectUnit 3]).requests =
      .selectUnit (0 : UnitIdx).val :: ([.emit 5] ++ .selectUnit (3 : UnitIdx).val :: []) ∧
    (∀ q ∈ [Request.emit 5], q ≠ .sessionStart ∧ ∀ n, q ≠ .selectBlock n) ∧
    runFrom 3 (building 0 [.selectUnit 0, .emit 5, .selectUnit 3]) =
      .next (ran 3 (building 0 [.selectUnit 0, .emit 5, .selectUnit 3])) ∧
    (ran 3 (building 0 [.selectUnit 0, .emit 5, .selectUnit 3])).status = .running ∧
    (0 : UnitIdx) ≠ 3 ∧ (∀ q ∈ [Request.emit 5], q ≠ .selectUnit (0 : UnitIdx).val) :=
  ⟨rfl, rfl, by simp, rfl, rfl, by decide, by simp⟩

theorem test_EmittedWordsReachTheImage_witness :
    (building 1 [.emit 5, .finalize]).Inv ∧ (building 1 [.emit 5, .finalize]).activeBlock = some 0 ∧
    (building 1 [.emit 5, .finalize]).isFinalized 0 = false ∧
    (building 1 [.emit 5, .finalize]).requests = [(5 : Word)].map Request.emit ++ .finalize :: [] ∧
    runFrom 2 (building 1 [.emit 5, .finalize]) = .next (ran 2 (building 1 [.emit 5, .finalize])) ∧
    (ran 2 (building 1 [.emit 5, .finalize])).status = .running :=
  ⟨by decide, rfl, rfl, rfl, rfl, rfl⟩

end Sys2Proof.Tests
end

section
/-!
Proofs of the statements from spec/00_scope.md: one request is one transaction (R10, R58), and the range of relative
jump targets (R8, R106).
-/

namespace Sys2Proof.Machine

variable {s t : State} {q : Request} {rest : List Request} {r : Response}

/-! ## Outputs of a command -/

theorem mark_done_keeps_outputs {f : Nat → Offsets → Offsets} (h : mark f s = .done t r) :
    t.outputs = s.outputs := by
  obtain ⟨b, u, p, o, -, -, -, -, -, -, rfl⟩ := mark_done h
  simp

/-- R58: FINALIZE (R192) and ENABLE (R193) are the only commands that issue output transactions. -/
theorem commandOf_done_keeps_outputs (hf : q ≠ .finalize) (he : ∀ m, q ≠ .enable m)
    (h : commandOf q s = .done t r) : t.outputs = s.outputs := by
  cases q with
  | encode i => cases h; rfl
  | decode w o => cases h; rfl
  | sessionStart => cases h; rfl
  | concurrent => cases h; rfl
  | selectBlock n => obtain ⟨b, -, rfl, -⟩ := selectBlock_done h; rfl
  | selectUnit n => obtain ⟨b, u, -, -, -, -, -, rfl⟩ := selectUnit_done h; simp
  | markStart => exact mark_done_keeps_outputs (f := fun c o => { o with start := c }) h
  | markWrapBottom => exact mark_done_keeps_outputs (f := fun c o => { o with wrapBottom := c }) h
  | markWrapTop => exact mark_done_keeps_outputs (f := fun c o => { o with wrapTop := c, endAt := c }) h
  | markEnd => exact mark_done_keeps_outputs (f := fun c o => { o with endAt := c }) h
  | emit w => obtain ⟨b, u, -, -, -, -, -, -, -, rfl⟩ := emit_done h; simp
  | label n => obtain ⟨b, -, rfl, -⟩ := label_done h; rfl
  | configure => obtain ⟨b, u, p, o, -, -, -, -, -, rfl⟩ := configure_done h; simp
  | finalize => exact absurd rfl hf
  | enable m => exact absurd rfl (he m)
  | list n => obtain ⟨rfl, -⟩ := list_done h; rfl

/-- Kept outputs are earlier ones with nothing appended, whatever the request. -/
theorem outputs_appended_of_kept (h : t.outputs = s.outputs) :
    ∃ os, t.outputs = s.outputs ++ os ∧ (os ≠ [] → q = .finalize ∨ ∃ m, q = .enable m) :=
  ⟨[], by simp [h], fun hne => absurd rfl hne⟩

/-- A command appends its output transactions after the earlier ones. -/
theorem commandOf_done_outputs (h : commandOf q s = .done t r) :
    ∃ os, t.outputs = s.outputs ++ os ∧ (os ≠ [] → q = .finalize ∨ ∃ m, q = .enable m) := by
  by_cases hf : q = .finalize
  · subst hf
    obtain ⟨b, ws, -, -, -, -, -, rfl⟩ := finalize_done h
    exact ⟨_, List.append_assoc .., fun _ => .inl rfl⟩
  by_cases he : ∃ m, q = .enable m
  · obtain ⟨m, rfl⟩ := he
    obtain ⟨b, starts, -, -, -, -, -, -, rfl⟩ := enable_done h
    exact ⟨_, rfl, fun _ => .inr ⟨m, rfl⟩⟩
  · exact outputs_appended_of_kept (commandOf_done_keeps_outputs hf (not_exists.mp he) h)

/-! ## One step, one transaction -/

/-- R10: a step that answers takes its request off the stream and appends one response. -/
theorem step_next_answers_once (h : s.requests = q :: rest) (hn : step s = .next t) :
    t.requests = rest ∧ ∃ r, t.responses = s.responses ++ [r] := by
  rcases step_next_cases h hn with
    ⟨-, r, -, rfl⟩ | ⟨-, rfl⟩ | ⟨-, rfl⟩ | ⟨-, e, -, rfl⟩ | ⟨-, t', r, hd, rfl, -⟩
  · simp
  · simp
  · simp
  · simp
  · obtain ⟨-, hreq, hresp, -, -⟩ := commandOf_done_frame hd
    simp [hreq, hresp]

/-- A step that answers issues no output unless it does a command: a codec answer, a session start, a refusal and a
raised error leave the outputs as they are. -/
theorem step_next_outputs (h : s.requests = q :: rest) (hn : step s = .next t) :
    ∃ os, t.outputs = s.outputs ++ os ∧ (os ≠ [] → q = .finalize ∨ ∃ m, q = .enable m) := by
  rcases step_next_cases h hn with
    ⟨-, r, -, rfl⟩ | ⟨-, rfl⟩ | ⟨-, rfl⟩ | ⟨-, e, -, rfl⟩ | ⟨-, t', r, hd, rfl, -⟩
  · exact outputs_appended_of_kept rfl
  · exact outputs_appended_of_kept rfl
  · exact outputs_appended_of_kept rfl
  · exact outputs_appended_of_kept rfl
  · simpa using commandOf_done_outputs hd

/-! ## The jump target and its origin -/

/-- The record of a `jmp` word (R120). -/
theorem decodeWord_of_formOf_jmp {w : Word} (h : formOf w = .jmp) :
    decodeWord w = .jmp (field w 5 3) (field w 0 5) (field w 8 5) := by
  simp only [decodeWord, h]

/-- The operand names of a `jmp` word (R106, R120). -/
theorem decodeMnemonic_operands_of_jmp {w : Word} (h : formOf w = .jmp) (origin : Nat) :
    (decodeMnemonic w origin).operands =
      [condName (field w 5 3), dec ((field w 0 5 : Int) - (origin : Int))] := by
  rw [decodeMnemonic, decodeWord_of_formOf_jmp h]
  rfl

/-- R37 item 2: in a state that meets the invariant a selected descriptor's offsets are in order. -/
theorem State.Inv.desc_ordered (hinv : s.Inv) {b : BlockIdx} {u : UnitIdx} {p : Phase} {o : Offsets}
    (hd : s.desc b u = .selected p o) : o.Ordered (s.cursor b) := by
  obtain ⟨hblocks, -⟩ := hinv
  obtain ⟨-, hsound, -⟩ := hblocks b
  have hu := hsound u
  rw [← State.desc_eq, hd] at hu
  simp only [Descriptor.sound, Bool.and_eq_true, decide_eq_true_eq] at hu
  obtain ⟨⟨hord, -⟩, -⟩ := hu
  exact hord

/-- R8 (D4): an offset is at least `first_instr` and below 32. -/
theorem Offsets.Ordered.firstInstr_lt {o : Offsets} {c : Nat} (h : o.Ordered c) : o.firstInstr < 32 := by
  obtain ⟨⟨hle, -, hlt⟩, -⟩ := h
  omega

end Sys2Proof.Machine

section
open Sys2Proof Sys2Proof.Machine

/-- Settles O50, from what a step that answers did: the stream and the answers, then the outputs. -/
theorem eachRequestIsOneTransaction : Obligations.EachRequestIsOneTransaction := by
  unfold Obligations.EachRequestIsOneTransaction
  intro s t q rest h hn
  obtain ⟨hreq, hresp⟩ := step_next_answers_once h hn
  exact ⟨hreq, hresp, step_next_outputs h hn⟩

/-- Settles O59: the address has 5 bits and the origin is below 32, and `first_instr` is at most `start`, which the
invariant keeps below 32. -/
theorem relativeTargetsStayInRange : Obligations.RelativeTargetsStayInRange := by
  unfold Obligations.RelativeTargetsStayInRange
  constructor
  · intro w origin hw
    have hops := decodeMnemonic_operands_of_jmp hw origin
    rw [field_eq_extract w 0 5] at hops
    have haddr : (w.extractLsb' 0 5).toNat < 32 := BitVec.isLt _
    have horigin : origin.val < 32 := origin.isLt
    exact ⟨_, _, hops, rfl, by omega, by omega⟩
  · intro s b u p o hinv hd
    exact (hinv.desc_ordered hd).firstInstr_lt

end
end

section
/-!
Proofs of the statements from spec/10_state.md: power-on (R38), what each request can change in one block's state
(R24, R27, R28), the status (R30) and the invariant (R37).
-/

namespace Sys2Proof.Machine

variable {s t : State} {q : Request} {rest : List Request} {r : Response} {b : BlockIdx} {u : UnitIdx}
variable {k k' : Block} {active : Option UnitIdx} {buf : Memory} {c : Nat}

/-! ## Power-on -/

@[simp] theorem State.reset_block (b : BlockIdx) : State.reset.block b = Block.fresh := by
  simp [State.block, State.reset, Vector.get_eq_getElem]

/-- R250: SESSION_START gives the selections, blocks and buffer of power-on. -/
theorem State.sameBuild_reset_sessionStart (s : State) : SameBuild State.reset s.sessionStart :=
  ⟨rfl, rfl, rfl, rfl, rfl⟩

theorem step_sessionStart (h : s.requests = .sessionStart :: rest) :
    step s = .next (s.accept .sessionStart rest).sessionStart := by
  rw [step_of_request h]
  rfl

theorem step_next_of_sessionStart (h : s.requests = .sessionStart :: rest) (hn : step s = .next t) :
    t = (s.accept .sessionStart rest).sessionStart := by
  rw [step_sessionStart h] at hn
  cases hn
  rfl

/-! ## What a request can do to one block

`BlockEdit` says once how a command changes the block it is done in; the cursors, the descriptors and the block
invariant are read off it. -/

/-- The requests that record the cursor in the active unit's descriptor, with what each records (R185 to R188). -/
inductive Marker : Request → (Nat → Offsets → Offsets) → Prop where
  | start : Marker .markStart fun c o => { o with start := c }
  | wrapBottom : Marker .markWrapBottom fun c o => { o with wrapBottom := c }
  | wrapTop : Marker .markWrapTop fun c o => { o with wrapTop := c, endAt := c }
  | endAt : Marker .markEnd fun c o => { o with endAt := c }

theorem Marker.commandOf_eq {f : Nat → Offsets → Offsets} (h : Marker q f) : commandOf q = mark f := by
  cases h <;> rfl

/-- `BlockEdit k active buf q k'`: a request `q` that is done may turn the active block's state `k` into `k'`, the
active unit being `active` and the staging buffer `buf`. -/
inductive BlockEdit (k : Block) (active : Option UnitIdx) (buf : Memory) : Request → Block → Prop where
  | selectUnit (u : UnitIdx) (hf : k.finalized = false) (hc : k.cursor < Config.capacity) :
      BlockEdit k active buf (.selectUnit u.val)
        { k with desc := k.desc.set u (.selected .building ⟨k.cursor, k.cursor, k.cursor, k.cursor, k.cursor⟩) }
  | mark {q : Request} {f : Nat → Offsets → Offsets} {u : UnitIdx} {p : Phase} {o : Offsets} (hm : Marker q f)
      (hf : k.finalized = false) (hu : active = some u) (hd : k.descOf u = .selected p o)
      (hc : k.cursor < Config.capacity) :
      BlockEdit k active buf q { k with desc := k.desc.set u (.selected p (f k.cursor o)) }
  | emit (w : Word) (hf : k.finalized = false) (hc : k.cursor < Config.capacity) :
      BlockEdit k active buf (.emit w) { k with cursor := k.cursor + 1 }
  | configure {u : UnitIdx} {p : Phase} {o : Offsets} (hf : k.finalized = false) (hu : active = some u)
      (hd : k.descOf u = .selected p o) :
      BlockEdit k active buf .configure { k with desc := k.desc.set u (.selected .configured o) }
  | finalize {ws : List Word} (hf : k.finalized = false)
      (hchecked : ∀ u, finalizable k.cursor (k.descOf u) = true) (hws : bufferWords buf k.cursor = .ok ws) :
      BlockEdit k active buf .finalize
        { k with imem := k.imem.writeFrom 0 ws, desc := k.desc.map Descriptor.closed, finalized := true }
  | enable {m : Nat} {starts : List (UnitIdx × Nat)} (hf : k.finalized = true)
      (hs : startsOf k (maskUnits m) = some starts) :
      BlockEdit k active buf (.enable m) { k with enabled := k.enabled ||| BitVec.ofNat Config.numUnits m }

/-- From `s` to `t` the request `q` left block `b` as it is, or edited it, the active one. -/
abbrev KeptOrEdited (s t : State) (q : Request) (b : BlockIdx) : Prop :=
  t.block b = s.block b ∨
    (s.activeBlock = some b ∧ BlockEdit (s.block b) s.activeUnit s.buf q (t.block b))

/-- A state that differs from `s` in its active block alone, as the request may change it. -/
theorem BlockEdit.block_cases {b₀ : BlockIdx} (he : BlockEdit (s.block b₀) s.activeUnit s.buf q k')
    (hb : s.activeBlock = some b₀) (ht : t.blocks = s.blocks.set b₀ k') (b : BlockIdx) : KeptOrEdited s t q b := by
  have hblock : t.block b = if b = b₀ then k' else s.block b := by
    rw [← State.setBlock_block s b₀ b k']
    exact State.block_congr ht b
  by_cases hbb : b = b₀
  · subst hbb
    exact .inr ⟨hb, by simpa [hblock] using he⟩
  · exact .inl (by simp [hblock, hbb])

theorem Marker.done_block {f : Nat → Offsets → Offsets} (hm : Marker q f) (h : commandOf q s = .done t r)
    (b : BlockIdx) : KeptOrEdited s t q b := by
  rw [hm.commandOf_eq] at h
  obtain ⟨b₀, u, p, o, hb, hf, hu, hd, hc, -, rfl⟩ := mark_done h
  exact (BlockEdit.mark hm hf hu hd hc).block_cases hb rfl b

/-- A command that is done leaves a block as it is, or edits it, the active one. -/
theorem commandOf_done_block (h : commandOf q s = .done t r) (b : BlockIdx) : KeptOrEdited s t q b := by
  cases q with
  | encode i => cases h; exact .inl rfl
  | decode w o => cases h; exact .inl rfl
  | sessionStart => cases h; exact .inl rfl
  | concurrent => cases h; exact .inl rfl
  | selectBlock n => obtain ⟨b₀, -, rfl, -⟩ := selectBlock_done h; exact .inl rfl
  | selectUnit n =>
    obtain ⟨b₀, u, rfl, hb, hf, hc, -, rfl⟩ := selectUnit_done h
    exact (BlockEdit.selectUnit u hf hc).block_cases hb rfl b
  | markStart => exact Marker.start.done_block h b
  | markWrapBottom => exact Marker.wrapBottom.done_block h b
  | markWrapTop => exact Marker.wrapTop.done_block h b
  | markEnd => exact Marker.endAt.done_block h b
  | emit w =>
    obtain ⟨b₀, u, hb, hf, -, -, hc, -, -, rfl⟩ := emit_done h
    exact (BlockEdit.emit w hf hc).block_cases hb rfl b
  | label n => obtain ⟨b₀, -, rfl, -⟩ := label_done h; exact .inl rfl
  | configure =>
    obtain ⟨b₀, u, p, o, hb, hf, hu, hd, -, rfl⟩ := configure_done h
    exact (BlockEdit.configure hf hu hd).block_cases hb rfl b
  | finalize =>
    obtain ⟨b₀, ws, hb, hf, hchecked, hws, -, rfl⟩ := finalize_done h
    exact (BlockEdit.finalize hf hchecked hws).block_cases hb rfl b
  | enable m =>
    obtain ⟨b₀, starts, -, -, hb, hf, hs, -, rfl⟩ := enable_done h
    exact (BlockEdit.enable hf hs).block_cases hb rfl b
  | list n => obtain ⟨rfl, -⟩ := list_done h; exact .inl rfl

/-- Apart from SESSION_START a step that answers changes no piece of R20's state but the status, or does a command. -/
theorem step_next_sameBuild_or_done (h : s.requests = q :: rest) (hq : q ≠ .sessionStart) (hn : step s = .next t) :
    SameBuild s t ∨ ∃ t' r, commandOf q (s.accept q rest) = .done t' r ∧ t = t'.respond r := by
  rcases step_next_cases h hn with
    ⟨-, r, -, rfl⟩ | ⟨rfl, -⟩ | ⟨-, rfl⟩ | ⟨-, e, -, rfl⟩ | ⟨-, t', r, hd, rfl, -⟩
  · exact .inl ⟨rfl, rfl, rfl, rfl, rfl⟩
  · exact absurd rfl hq
  · exact .inl ⟨rfl, rfl, rfl, rfl, rfl⟩
  · exact .inl ⟨rfl, rfl, rfl, rfl, rfl⟩
  · exact .inr ⟨t', r, hd, rfl⟩

/-- A step other than SESSION_START leaves a block as it is, or edits it, the active one. -/
theorem step_next_block (h : s.requests = q :: rest) (hq : q ≠ .sessionStart) (hn : step s = .next t)
    (b : BlockIdx) : KeptOrEdited s t q b := by
  rcases step_next_sameBuild_or_done h hq hn with ⟨-, -, hblocks, -, -⟩ | ⟨t', r, hd, rfl⟩
  · exact .inl (State.block_congr hblocks b)
  · exact commandOf_done_block hd b

/-! ## The cursor -/

/-- R24: an edit keeps the cursor, or is an EMIT's and moves it by one. -/
theorem BlockEdit.cursor_cases (h : BlockEdit k active buf q k') :
    k'.cursor = k.cursor ∨ ((∃ w, q = .emit w) ∧ k'.cursor = k.cursor + 1) := by
  cases h with
  | selectUnit u => exact .inl rfl
  | mark => exact .inl rfl
  | emit w => exact .inr ⟨⟨w, rfl⟩, rfl⟩
  | configure => exact .inl rfl
  | finalize => exact .inl rfl
  | enable => exact .inl rfl

/-! ## The descriptors -/

/-- R192: closing finishes an open descriptor with its offsets, and leaves the others as they are. -/
theorem Descriptor.closed_cases (d : Descriptor) :
    d.closed = d ∨
      ∃ p o, d = .selected p o ∧ (p = .building ∨ p = .configured) ∧ d.closed = .selected .finalized o := by
  match d with
  | .unselected => exact .inl rfl
  | .selected .building o => exact .inr ⟨.building, o, rfl, .inl rfl, rfl⟩
  | .selected .configured o => exact .inr ⟨.configured, o, rfl, .inr rfl, rfl⟩
  | .selected .finalized o => exact .inl rfl

/-- Every descriptor of a block after FINALIZE. -/
theorem Block.descOf_loaded (k : Block) (m : Memory) (u : UnitIdx) :
    ({ k with imem := m, desc := k.desc.map Descriptor.closed, finalized := true } : Block).descOf u =
      (k.descOf u).closed :=
  Block.descOf_map k Descriptor.closed u

/-- `DescEdit c f u active q d d'`: in a block with cursor `c`, finalized or not as `f` says, an edit by the request
`q` may turn unit `u`'s descriptor `d` into `d'`, the active unit being `active`. -/
inductive DescEdit (c : Nat) (f : Bool) (u : UnitIdx) (active : Option UnitIdx) :
    Request → Descriptor → Descriptor → Prop where
  | kept (q : Request) (d : Descriptor) : DescEdit c f u active q d d
  | select (d : Descriptor) (hf : f = false) :
      DescEdit c f u active (.selectUnit u.val) d (.selected .building ⟨c, c, c, c, c⟩)
  | mark {q : Request} {g : Nat → Offsets → Offsets} (hm : Marker q g) (p : Phase) (o : Offsets) :
      DescEdit c f u active q (.selected p o) (.selected p (g c o))
  | configure (hf : f = false) (hu : active = some u) (p : Phase) (o : Offsets) :
      DescEdit c f u active .configure (.selected p o) (.selected .configured o)
  | close (p : Phase) (hp : p = .building ∨ p = .configured) (o : Offsets) :
      DescEdit c f u active .finalize (.selected p o) (.selected .finalized o)

/-- What an edit of a block does to each of its descriptors. -/
theorem BlockEdit.descEdit (h : BlockEdit k active buf q k') (u : UnitIdx) :
    DescEdit k.cursor k.finalized u active q (k.descOf u) (k'.descOf u) := by
  cases h with
  | selectUnit v hf hc =>
    rw [Block.descOf_set]
    split
    case isTrue huv => subst huv; exact .select _ hf
    case isFalse => exact .kept _ _
  | mark hm hf hu hd hc =>
    rw [Block.descOf_set]
    split
    case isTrue huv => subst huv; rw [hd]; exact .mark hm _ _
    case isFalse => exact .kept _ _
  | emit w => exact .kept _ _
  | configure hf hu hd =>
    rw [Block.descOf_set]
    split
    case isTrue huv => subst huv; rw [hd]; exact .configure hf hu _ _
    case isFalse => exact .kept _ _
  | finalize hf hchecked hws =>
    rw [Block.descOf_loaded]
    rcases (k.descOf u).closed_cases with hkept | ⟨p, o, hd, hp, hclosed⟩
    · rw [hkept]; exact .kept _ _
    · rw [hclosed, hd]; exact .close p hp o
  | enable => exact .kept _ _

/-- R28: a selected descriptor stays selected. -/
theorem DescEdit.isSelected {f : Bool} {d d' : Descriptor} (h : DescEdit c f u active q d d')
    (hd : d.isSelected = true) : d'.isSelected = true := by
  cases h with
  | kept => exact hd
  | select => rfl
  | mark => rfl
  | configure => rfl
  | close => rfl

/-- R185 to R188: what a marker leaves of the offsets, and which request it is where it does not. -/
theorem Marker.offsets {f : Nat → Offsets → Offsets} (h : Marker q f) (c : Nat) (o : Offsets) :
    (f c o).firstInstr = o.firstInstr ∧
      ((f c o).start = o.start ∨ q = .markStart) ∧
      ((f c o).wrapBottom = o.wrapBottom ∨ q = .markWrapBottom) ∧
      ((f c o).wrapTop = o.wrapTop ∨ q = .markWrapTop) ∧
      ((f c o).endAt = o.endAt ∨ q = .markWrapTop ∨ q = .markEnd) := by
  cases h <;> simp

/-- R27: an edit other than a new SELECT_UNIT keeps `first_instr`, and each other offset unless it is its marker's. -/
theorem DescEdit.offsets {f : Bool} {p : Phase} {o : Offsets} {d' : Descriptor}
    (h : DescEdit c f u active q (.selected p o) d') (hq : q ≠ .selectUnit u.val) :
    ∃ p' o', d' = .selected p' o' ∧ o'.firstInstr = o.firstInstr ∧
      (o'.start = o.start ∨ q = .markStart) ∧
      (o'.wrapBottom = o.wrapBottom ∨ q = .markWrapBottom) ∧
      (o'.wrapTop = o.wrapTop ∨ q = .markWrapTop) ∧
      (o'.endAt = o.endAt ∨ q = .markWrapTop ∨ q = .markEnd) := by
  cases h with
  | kept => exact ⟨p, o, rfl, rfl, .inl rfl, .inl rfl, .inl rfl, .inl rfl⟩
  | select => exact absurd rfl hq
  | mark hm => exact ⟨p, _, rfl, hm.offsets c o⟩
  | configure => exact ⟨.configured, o, rfl, rfl, .inl rfl, .inl rfl, .inl rfl, .inl rfl⟩
  | close => exact ⟨.finalized, o, rfl, rfl, .inl rfl, .inl rfl, .inl rfl, .inl rfl⟩

/-! ## Soundness of a descriptor -/

/-- What the invariant says of a descriptor, read at the phase and offsets of a selected one. -/
theorem Descriptor.sound_iff {d : Descriptor} {f : Bool} :
    d.sound c f = true ↔
      ∀ p o, d = .selected p o → o.Ordered c ∧ (p = .finalized ↔ f = true) ∧ (f = true → o.Loaded c) := by
  cases d with
  | unselected => simp [Descriptor.sound]
  | selected p o =>
    cases f <;> by_cases hp : p = .finalized <;> simp [Descriptor.sound, hp]

theorem Descriptor.finalOffsets_iff {d : Descriptor} :
    d.finalOffsets.isSome = true ↔ ∃ o, d = .selected .finalized o := by
  match d with
  | .unselected => simp [Descriptor.finalOffsets]
  | .selected .building o => simp [Descriptor.finalOffsets]
  | .selected .configured o => simp [Descriptor.finalOffsets]
  | .selected .finalized o => simp [Descriptor.finalOffsets]

/-- R28: no descriptor of a block that is not finalized is `FINALIZED`. -/
theorem Descriptor.phase?_ne_finalized {d : Descriptor} (h : d.sound c false = true) :
    d.phase? ≠ some .finalized := by
  cases d with
  | unselected => simp [Descriptor.phase?]
  | selected p o =>
    obtain ⟨-, hp, -⟩ := Descriptor.sound_iff.mp h p o rfl
    simpa [Descriptor.phase?] using hp

/-- R28: an edit of a sound descriptor keeps its state or moves it along the state machine. -/
theorem DescEdit.phase?_cases {f : Bool} {d d' : Descriptor} (h : DescEdit c f u active q d d')
    (hd : d.sound c f = true) :
    d'.phase? = d.phase? ∨
    (q = .selectUnit u.val ∧ d.phase? ≠ some .finalized ∧ d'.phase? = some .building) ∨
    (q = .configure ∧ active = some u ∧ d.phase? = some .building ∧ d'.phase? = some .configured) ∨
    (q = .finalize ∧ (d.phase? = some .building ∨ d.phase? = some .configured) ∧ d'.phase? = some .finalized) := by
  cases h with
  | kept => exact .inl rfl
  | select _ hf =>
    subst hf
    exact .inr (.inl ⟨rfl, Descriptor.phase?_ne_finalized hd, rfl⟩)
  | mark => exact .inl rfl
  | configure hf hu p o =>
    subst hf
    have hp : p ≠ .finalized := by simpa [Descriptor.phase?] using Descriptor.phase?_ne_finalized hd
    cases p with
    | building => exact .inr (.inr (.inl ⟨rfl, hu, rfl, rfl⟩))
    | configured => exact .inl rfl
    | finalized => exact absurd rfl hp
  | close p hp o => exact .inr (.inr (.inr ⟨rfl, hp.imp (congrArg some) (congrArg some), rfl⟩))

/-! ## The status -/

/-- The errors of `RequireUnit()` (R182). -/
abbrev requireUnitErrors : List ErrorCode := [.noBlockSelected, .blockFinalized, .noUnitSelected]

theorem requireUnit_error {e : ErrorCode} (h : requireUnit s = .error e) :
    e ∈ requireUnitErrors := by
  unfold requireUnit at h
  split at h
  · cases h; simp
  · split at h
    · cases h; simp
    · split at h
      · cases h; simp
      · split at h
        · cases h
        · cases h; simp

theorem withUnit_raise {f : BlockIdx → UnitIdx → Reply} {e : ErrorCode} (h : withUnit s f = .raise e) :
    e ∈ requireUnitErrors ∨ ∃ b u, f b u = .raise e := by
  unfold withUnit at h
  split at h
  · rename_i he
    cases h
    exact .inl (requireUnit_error he)
  · exact .inr ⟨_, _, h⟩

theorem withBlock_raise {f : BlockIdx → Reply} {e : ErrorCode} (h : withBlock s f = .raise e) :
    e = .noBlockSelected ∨ ∃ b, f b = .raise e := by
  unfold withBlock at h
  split at h
  · cases h; exact .inl rfl
  · exact .inr ⟨_, h⟩

theorem selectBlock_raise {n : Nat} {e : ErrorCode} (h : selectBlock n s = .raise e) :
    e = .blockIndexOutOfRange := by
  unfold selectBlock at h
  split at h
  · cases h
  · cases h; rfl

theorem selectUnit_raise {n : Nat} {e : ErrorCode} (h : selectUnit n s = .raise e) :
    e ∈ [ErrorCode.unitIndexOutOfRange, .noBlockSelected, .blockFinalized, .offsetOutOfRange] := by
  unfold selectUnit at h
  split at h
  · rcases withBlock_raise h with rfl | ⟨b, h⟩
    · simp
    · simp only at h
      split at h
      · cases h; simp
      · split at h
        · cases h; simp
        · cases h
  · cases h; simp

theorem mark_raise {f : Nat → Offsets → Offsets} {e : ErrorCode} (h : mark f s = .raise e) :
    e ∈ requireUnitErrors ∨ e = .offsetOutOfRange := by
  refine (withUnit_raise h).imp id fun ⟨b, u, h⟩ => ?_
  simp only at h
  split at h
  · cases h; rfl
  · cases h

theorem emit_raise {w : Word} {e : ErrorCode} (h : emit w s = .raise e) :
    e ∈ requireUnitErrors ∨
      e ∈ [ErrorCode.capacityExceeded, .bufferInterleave] := by
  refine (withUnit_raise h).imp id fun ⟨b, u, h⟩ => ?_
  simp only at h
  split at h
  · cases h; simp
  · split at h
    · cases h; simp
    · cases h

theorem label_raise {n : Nat} {e : ErrorCode} (h : label n s = .raise e) : e = .noBlockSelected := by
  rcases withBlock_raise h with rfl | ⟨b, h⟩
  · rfl
  · cases h

theorem configure_raise {e : ErrorCode} (h : configure s = .raise e) :
    e ∈ requireUnitErrors := by
  rcases withUnit_raise h with he | ⟨b, u, h⟩
  · exact he
  · split at h
    · cases h; simp
    · cases h

theorem finalize_raise {e : ErrorCode} (h : finalize s = .raise e) :
    e ∈ [ErrorCode.noBlockSelected, .blockFinalized, .descriptorInvariant] := by
  rcases withBlock_raise h with rfl | ⟨b, h⟩
  · simp
  · simp only at h
    split at h
    · cases h; simp
    · split at h
      · split at h
        · cases h
        · cases h
      · cases h; simp

theorem enable_raise {m : Nat} {e : ErrorCode} (h : enable m s = .raise e) :
    e ∈ [ErrorCode.enableMaskInvalid, .noBlockSelected, .unitNotBuilt, .notFinalized] := by
  unfold enable at h
  split at h
  · cases h; simp
  · rcases withBlock_raise h with rfl | ⟨b, h⟩
    · simp
    · simp only at h
      split at h
      · split at h
        · cases h; simp
        · cases h
      · cases h; simp

theorem Marker.raise_ne_sessionAborted {f : Nat → Offsets → Offsets} (hm : Marker q f) {e : ErrorCode}
    (h : commandOf q s = .raise e) : e ≠ .sessionAborted := by
  rw [hm.commandOf_eq] at h
  rintro rfl
  simpa using mark_raise h

/-- R222: `SESSION_ABORTED` is the answer of an aborted session alone; no command raises it. -/
theorem commandOf_raise_ne_sessionAborted {e : ErrorCode} (h : commandOf q s = .raise e) : e ≠ .sessionAborted := by
  cases q with
  | encode i => cases h
  | decode w o => cases h
  | sessionStart => cases h
  | concurrent => cases h
  | selectBlock n => rintro rfl; simpa using selectBlock_raise h
  | selectUnit n => rintro rfl; simpa using selectUnit_raise h
  | markStart => exact Marker.start.raise_ne_sessionAborted h
  | markWrapBottom => exact Marker.wrapBottom.raise_ne_sessionAborted h
  | markWrapTop => exact Marker.wrapTop.raise_ne_sessionAborted h
  | markEnd => exact Marker.endAt.raise_ne_sessionAborted h
  | emit w => rintro rfl; simpa using emit_raise h
  | label n => rintro rfl; simpa using label_raise h
  | configure => rintro rfl; simpa using configure_raise h
  | finalize => rintro rfl; simpa using finalize_raise h
  | enable m => rintro rfl; simpa using enable_raise h
  | list n => exact absurd h list_raises_nothing

theorem Response.ne_error_of_code_eq_zero (h : r.code = 0) (e : ErrorCode) : r ≠ .error e := by
  rintro rfl
  cases e <;> cases h

/-- R30: in a running session the status takes the code of a request that fails, and stays otherwise. -/
theorem step_next_status_of_running (h : s.requests = q :: rest) (hs : s.status = .running) (hn : step s = .next t) :
    ∃ r, t.responses = s.responses ++ [r] ∧
      ((∃ code, r = .error code ∧ code ≠ .sessionAborted ∧ t.status = .aborted code) ∨
       ((∀ code, r ≠ .error code) ∧ t.status = .running)) := by
  rcases step_next_cases h hn with
    ⟨-, r, hr, rfl⟩ | ⟨-, rfl⟩ | ⟨⟨e, he⟩, -⟩ | ⟨-, e, hd, rfl⟩ | ⟨-, t', r, hd, rfl, -⟩
  · exact ⟨r, rfl, .inr ⟨Response.ne_error_of_code_eq_zero hr, hs⟩⟩
  · exact ⟨.ok, rfl, .inr ⟨Response.ne_error_of_code_eq_zero rfl, rfl⟩⟩
  · rw [hs] at he
    cases he
  · exact ⟨.error e, rfl, .inl ⟨e, rfl, commandOf_raise_ne_sessionAborted hd, rfl⟩⟩
  · obtain ⟨hstatus, -, hresp, -, hr⟩ := commandOf_done_frame hd
    exact ⟨r, by simp [hresp], .inr ⟨hr, by simp [hstatus, hs]⟩⟩

/-- R225: in an aborted session only SESSION_START changes the status. -/
theorem step_next_status_of_aborted {e : ErrorCode} (h : s.requests = q :: rest) (hs : s.status = .aborted e)
    (hq : q ≠ .sessionStart) (hn : step s = .next t) : t.status = .aborted e := by
  rcases step_next_cases h hn with
    ⟨-, r, -, rfl⟩ | ⟨rfl, -⟩ | ⟨-, rfl⟩ | ⟨hrun, -⟩ | ⟨hrun, -⟩
  · exact hs
  · exact absurd rfl hq
  · exact hs
  · rw [hs] at hrun
    cases hrun
  · rw [hs] at hrun
    cases hrun

/-! ## The invariant of a block -/

theorem Block.fresh_inv : Block.fresh.Inv := by
  refine ⟨by decide, fun u => ?_, rfl, fun i => rfl, fun u hu => ?_⟩
  · rw [Block.fresh_descOf]
    rfl
  · exact absurd hu (by simp [Block.fresh])

/-- R32: no unit of a block that is not finalized is enabled. -/
theorem Block.Inv.not_enabled (hk : k.Inv) (hf : k.finalized = false) (u : UnitIdx) :
    ¬ k.enabled.getLsbD u = true := by
  intro hu
  obtain ⟨-, hsound, -, -, hen⟩ := hk
  obtain ⟨o, ho⟩ := Descriptor.finalOffsets_iff.mp (hen u hu)
  obtain ⟨-, hp, -⟩ := Descriptor.sound_iff.mp (hsound u) _ _ ho
  simp [hf] at hp

/-- In a block that is not finalized a descriptor is replaced by a sound one. -/
theorem Block.Inv.set_desc (hk : k.Inv) (hf : k.finalized = false) {d : Descriptor}
    (hd : d.sound k.cursor false = true) : ({ k with desc := k.desc.set u d } : Block).Inv := by
  have hdis := hk.not_enabled hf
  obtain ⟨hcur, hsound, hwf, himem, -⟩ := hk
  refine ⟨hcur, fun v => ?_, hwf, himem, fun v hv => absurd hv (hdis v)⟩
  rw [Block.descOf_set]
  split
  · simpa [hf] using hd
  · exact hsound v

/-- R27, R184: the offsets SELECT_UNIT gives are in order. -/
theorem Offsets.ordered_of_cursor (hc : c < Config.capacity) : (Offsets.mk c c c c c).Ordered c :=
  have hle : c ≤ c ∧ c ≤ c ∧ c < 32 := ⟨le_rfl, le_rfl, hc⟩
  ⟨hle, hle, hle, hle⟩

/-- R185 to R188: a marker keeps the offsets in order. -/
theorem Marker.ordered {f : Nat → Offsets → Offsets} (hm : Marker q f) {o : Offsets} (ho : o.Ordered c)
    (hc : c < Config.capacity) : (f c o).Ordered c := by
  obtain ⟨hstart, hbottom, htop, hend⟩ := ho
  have hnew : o.firstInstr ≤ c ∧ c ≤ c ∧ c < 32 := ⟨by omega, le_rfl, hc⟩
  cases hm with
  | start => exact ⟨hnew, hbottom, htop, hend⟩
  | wrapBottom => exact ⟨hstart, hnew, htop, hend⟩
  | wrapTop => exact ⟨hstart, hbottom, hnew, hnew⟩
  | endAt => exact ⟨hstart, hbottom, htop, hnew⟩

theorem Offsets.Ordered.mono {o : Offsets} {c' : Nat} (h : o.Ordered c) (hc : c ≤ c') : o.Ordered c' := by
  obtain ⟨⟨s₁, s₂, s₃⟩, ⟨b₁, b₂, b₃⟩, ⟨t₁, t₂, t₃⟩, ⟨e₁, e₂, e₃⟩⟩ := h
  exact ⟨⟨s₁, s₂.trans hc, s₃⟩, ⟨b₁, b₂.trans hc, b₃⟩, ⟨t₁, t₂.trans hc, t₃⟩, ⟨e₁, e₂.trans hc, e₃⟩⟩

/-- In a block that is not finalized, ordered offsets and a state other than `FINALIZED` are all soundness asks. -/
theorem Descriptor.sound_open {p : Phase} {o : Offsets} (hp : p ≠ .finalized) (ho : o.Ordered c) :
    (Descriptor.selected p o).sound c false = true :=
  Descriptor.sound_iff.mpr fun _ _ e => by cases e; exact ⟨ho, by simp [hp], by simp⟩

/-- What soundness gives of a selected descriptor in a block that is not finalized. -/
theorem Descriptor.open_of_sound {d : Descriptor} {p : Phase} {o : Offsets} (h : d.sound c false = true)
    (hd : d = .selected p o) : p ≠ .finalized ∧ o.Ordered c := by
  obtain ⟨ho, hp, -⟩ := Descriptor.sound_iff.mp h p o hd
  exact ⟨by simpa using hp, ho⟩

/-- EMIT moves the cursor past offsets that stay in order, in a block with no image and no enabled unit yet. -/
theorem Block.Inv.advance (hk : k.Inv) (hf : k.finalized = false) (hc : k.cursor < Config.capacity) :
    ({ k with cursor := k.cursor + 1 } : Block).Inv := by
  have hdis := hk.not_enabled hf
  obtain ⟨-, hsound, hwf, himem, -⟩ := hk
  refine ⟨hc, fun u => ?_, hwf, fun i => ?_, fun u hu => absurd hu (hdis u)⟩
  · have hu := hsound u
    rw [hf] at hu
    show (k.descOf u).sound (k.cursor + 1) k.finalized = true
    rw [hf]
    refine Descriptor.sound_iff.mpr fun p o hd => ?_
    obtain ⟨hp, ho⟩ := Descriptor.open_of_sound hu hd
    exact ⟨ho.mono (Nat.le_succ _), by simp [hp], by simp⟩
  · simpa [hf] using himem i

theorem Descriptor.openOffsets_of_ne_finalized {p : Phase} (hp : p ≠ .finalized) (o : Offsets) :
    (Descriptor.selected p o).openOffsets = some o := by
  cases p with
  | building => rfl
  | configured => rfl
  | finalized => exact absurd rfl hp

/-- R192: closing a descriptor that FINALIZE has checked makes it sound for a finalized block. -/
theorem Descriptor.closed_sound {d : Descriptor} (h : d.sound c false = true) (hchecked : finalizable c d = true) :
    d.closed.sound c true = true := by
  cases d with
  | unselected => rfl
  | selected p o =>
    obtain ⟨hp, ho⟩ := Descriptor.open_of_sound h rfl
    have hopen := Descriptor.openOffsets_of_ne_finalized hp o
    have hloaded : o.Loaded c := by
      simp only [finalizable, hopen, Bool.and_eq_true, decide_eq_true_eq] at hchecked
      obtain ⟨⟨-, hloop⟩, hfilled⟩ := hchecked
      exact ⟨hloop, hfilled⟩
    simp only [Descriptor.closed, hopen]
    exact Descriptor.sound_iff.mpr fun _ _ e => by cases e; exact ⟨ho, by simp, fun _ => hloaded⟩

/-- FINALIZE writes the image exactly below the cursor and closes the descriptors it has checked. -/
theorem Block.Inv.load (hk : k.Inv) (hf : k.finalized = false)
    (hchecked : ∀ u, finalizable k.cursor (k.descOf u) = true) {ws : List Word} (hlen : ws.length = k.cursor) :
    ({ k with
        imem := k.imem.writeFrom 0 ws, desc := k.desc.map Descriptor.closed, finalized := true } : Block).Inv := by
  have hdis := hk.not_enabled hf
  obtain ⟨hcur, hsound, hwf, himem, -⟩ := hk
  refine ⟨hcur, fun u => ?_, Memory.writeFrom_wf hwf ws (by simpa [hlen] using hcur), fun i => ?_,
    fun u hu => absurd hu (hdis u)⟩
  · have hu := hsound u
    rw [hf] at hu
    rw [Block.descOf_loaded]
    exact Descriptor.closed_sound hu (hchecked u)
  · have hold : (k.imem.lookup i).isSome = false := by simpa [hf] using himem i
    rw [Memory.lookup_writeFrom]
    by_cases hi : i.val < k.cursor
    · simp [hlen, hi]
    · simpa [hlen, hi] using hold

/-- R193: the units of a mask are those whose bit is set. -/
theorem mem_maskUnits {m : Nat} (h : m.testBit u = true) : u ∈ maskUnits m :=
  List.mem_filter.mpr ⟨mem_allUnits u, h⟩

/-- ENABLE adds units that have a finalized program. -/
theorem Block.Inv.enable (hk : k.Inv) {m : Nat} {starts : List (UnitIdx × Nat)}
    (hs : startsOf k (maskUnits m) = some starts) :
    ({ k with enabled := k.enabled ||| BitVec.ofNat Config.numUnits m } : Block).Inv := by
  obtain ⟨hcur, hsound, hwf, himem, hen⟩ := hk
  refine ⟨hcur, hsound, hwf, himem, fun u hu => ?_⟩
  rw [BitVec.getLsbD_or, Bool.or_eq_true] at hu
  rcases hu with hu | hu
  · exact hen u hu
  · rw [BitVec.getLsbD_ofNat, Bool.and_eq_true] at hu
    obtain ⟨-, hbit⟩ := hu
    obtain ⟨hbuilt, -⟩ := startsOf_some hs
    exact hbuilt u (mem_maskUnits hbit)

/-- Every edit keeps the invariant of the block. -/
theorem BlockEdit.keeps_inv (h : BlockEdit k active buf q k') (hk : k.Inv) : k'.Inv := by
  have ⟨_, hsound, _⟩ := hk
  cases h with
  | selectUnit u hf hc =>
    exact hk.set_desc hf (Descriptor.sound_open (by simp) (Offsets.ordered_of_cursor hc))
  | mark hm hf hu hd hc =>
    obtain ⟨hp, ho⟩ := Descriptor.open_of_sound (hf ▸ hsound _) hd
    exact hk.set_desc hf (Descriptor.sound_open hp (hm.ordered ho hc))
  | emit w hf hc => exact hk.advance hf hc
  | configure hf hu hd =>
    obtain ⟨-, ho⟩ := Descriptor.open_of_sound (hf ▸ hsound _) hd
    exact hk.set_desc hf (Descriptor.sound_open (by simp) ho)
  | finalize hf hchecked hws =>
    obtain ⟨hlen, -⟩ := bufferWords_ok hws
    exact hk.load hf hchecked hlen
  | enable hf hs => exact hk.enable hs

/-! ## The invariant of the machine -/

/-- The part of the invariant that reads the pieces of R20's state other than the status. -/
structure State.BuildInv (s : State) : Prop where
  blocks : ∀ b, (s.block b).Inv
  buffer : s.BufferInv
  selected : ∀ u, s.activeUnit = some u → ∃ b, s.activeBlock = some b ∧ (s.desc b u).isSelected = true

theorem State.inv_iff : s.Inv ↔ s.BuildInv ∧ s.status ≠ .aborted .sessionAborted ∧ s.decoding = none :=
  ⟨fun ⟨hblocks, hbuffer, hselected, hrest⟩ => ⟨⟨hblocks, hbuffer, hselected⟩, hrest⟩,
    fun ⟨⟨hblocks, hbuffer, hselected⟩, hrest⟩ => ⟨hblocks, hbuffer, hselected, hrest⟩⟩

theorem State.BuildInv.of_sameBuild (hs : s.BuildInv) (h : SameBuild s t) : t.BuildInv := by
  obtain ⟨hab, hau, hblocks, hbuf, howner⟩ := h
  have hblock := State.block_congr hblocks
  obtain ⟨hbs, hbuffer, hselected⟩ := hs
  refine ⟨fun b => hblock b ▸ hbs b, ?_, fun u hu => ?_⟩
  · simpa only [State.BufferInv, State.cursor_eq, State.isFinalized_eq, hblock, hbuf, howner] using hbuffer
  · simpa only [State.desc_eq, hblock, hab] using hselected u (hau ▸ hu)

theorem State.reset_buildInv : State.reset.BuildInv where
  blocks b := by rw [State.reset_block]; exact Block.fresh_inv
  buffer := by
    refine ⟨rfl, fun b hb => (by cases hb), fun b _ hc => ?_⟩
    rw [State.cursor_eq, State.reset_block] at hc
    exact absurd hc (lt_irrefl 0)
  selected u hu := by cases hu

/-! ### The buffer and the selection under a command -/

/-- R25, R26: only EMIT writes the staging buffer or takes it over. -/
abbrev BufferKeptOrEmit (s t : State) (q : Request) : Prop :=
  (t.buf = s.buf ∧ t.bufOwner = s.bufOwner) ∨ ∃ w, q = .emit w

/-- R22, R23: only SELECT_BLOCK and SELECT_UNIT move the selection. -/
abbrev SelectionKeptOrSelect (s t : State) (q : Request) : Prop :=
  (t.activeBlock = s.activeBlock ∧ t.activeUnit = s.activeUnit) ∨
    (∃ n, q = .selectBlock n) ∨ ∃ n, q = .selectUnit n

theorem Marker.done_keeps_buffer_and_selection {f : Nat → Offsets → Offsets} (hm : Marker q f)
    (h : commandOf q s = .done t r) : BufferKeptOrEmit s t q ∧ SelectionKeptOrSelect s t q := by
  rw [hm.commandOf_eq] at h
  obtain ⟨b, u, p, o, -, -, -, -, -, -, rfl⟩ := mark_done h
  exact ⟨.inl ⟨rfl, rfl⟩, .inl ⟨rfl, rfl⟩⟩

/-- A command that is done keeps the buffer unless it is an EMIT, and the selection unless it is a SELECT. -/
theorem commandOf_done_keeps_buffer_and_selection (h : commandOf q s = .done t r) :
    BufferKeptOrEmit s t q ∧ SelectionKeptOrSelect s t q := by
  cases q with
  | encode i => cases h; exact ⟨.inl ⟨rfl, rfl⟩, .inl ⟨rfl, rfl⟩⟩
  | decode w o => cases h; exact ⟨.inl ⟨rfl, rfl⟩, .inl ⟨rfl, rfl⟩⟩
  | sessionStart => cases h; exact ⟨.inl ⟨rfl, rfl⟩, .inl ⟨rfl, rfl⟩⟩
  | concurrent => cases h; exact ⟨.inl ⟨rfl, rfl⟩, .inl ⟨rfl, rfl⟩⟩
  | selectBlock n =>
    obtain ⟨b, -, rfl, -⟩ := selectBlock_done h
    exact ⟨.inl ⟨rfl, rfl⟩, .inr (.inl ⟨n, rfl⟩)⟩
  | selectUnit n =>
    obtain ⟨b, u, -, -, -, -, -, rfl⟩ := selectUnit_done h
    exact ⟨.inl ⟨rfl, rfl⟩, .inr (.inr ⟨n, rfl⟩)⟩
  | markStart => exact Marker.start.done_keeps_buffer_and_selection h
  | markWrapBottom => exact Marker.wrapBottom.done_keeps_buffer_and_selection h
  | markWrapTop => exact Marker.wrapTop.done_keeps_buffer_and_selection h
  | markEnd => exact Marker.endAt.done_keeps_buffer_and_selection h
  | emit w =>
    obtain ⟨b, u, -, -, -, -, -, -, -, rfl⟩ := emit_done h
    exact ⟨.inr ⟨w, rfl⟩, .inl ⟨rfl, rfl⟩⟩
  | label n => obtain ⟨b, -, rfl, -⟩ := label_done h; exact ⟨.inl ⟨rfl, rfl⟩, .inl ⟨rfl, rfl⟩⟩
  | configure => obtain ⟨b, u, p, o, -, -, -, -, -, rfl⟩ := configure_done h; exact ⟨.inl ⟨rfl, rfl⟩, .inl ⟨rfl, rfl⟩⟩
  | finalize => obtain ⟨b, ws, -, -, -, -, -, rfl⟩ := finalize_done h; exact ⟨.inl ⟨rfl, rfl⟩, .inl ⟨rfl, rfl⟩⟩
  | enable m => obtain ⟨b, starts, -, -, -, -, -, -, rfl⟩ := enable_done h; exact ⟨.inl ⟨rfl, rfl⟩, .inl ⟨rfl, rfl⟩⟩
  | list n => obtain ⟨rfl, -⟩ := list_done h; exact ⟨.inl ⟨rfl, rfl⟩, .inl ⟨rfl, rfl⟩⟩

/-! ### The staging buffer -/

/-- R29: no edit takes a block's `finalized` back. -/
theorem BlockEdit.finalized_of_finalized (h : BlockEdit k active buf q k') (hf : k.finalized = true) :
    k'.finalized = true := by
  cases h with
  | selectUnit => exact hf
  | mark => exact hf
  | emit => exact hf
  | configure => exact hf
  | finalize => rfl
  | enable => exact hf

/-- The buffer's invariant reads the buffer, its owner, the cursors and which blocks are not finalized. -/
theorem State.BufferInv.of_kept (hs : s.BufferInv) (hbuf : t.buf = s.buf) (howner : t.bufOwner = s.bufOwner)
    (hcur : ∀ b, t.cursor b = s.cursor b) (hfin : ∀ b, t.isFinalized b = false → s.isFinalized b = false) :
    t.BufferInv := by
  obtain ⟨hwf, howned, hopen⟩ := hs
  simp only [State.BufferInv, hbuf, howner, hcur]
  exact ⟨hwf, howned, fun b hf hc => hopen b (hfin b hf) hc⟩

theorem interleaves_eq_false {b₂ : BlockIdx} (h : interleaves s b = false) (ho : s.bufOwner = some b₂) :
    b₂ = b ∨ s.isFinalized b₂ = true := by
  by_cases hb : b₂ = b
  · exact .inl hb
  · exact .inr (by simpa [interleaves, ho, hb] using h)

/-- R189: EMIT writes the cell at the cursor of the block that takes the buffer, over no other block's words. -/
theorem emit_done_keeps_bufferInv {w : Word} (hs : s.BufferInv) (h : emit w s = .done t r) : t.BufferInv := by
  obtain ⟨b, u, -, hf, -, -, hc, hi, -, rfl⟩ := emit_done h
  obtain ⟨hwf, howned, hopen⟩ := hs
  refine ⟨Memory.write_wf hwf hc w, fun b' hb' => ?_, fun b' hf' hc' => ?_⟩
  · obtain rfl : b = b' := Option.some.inj hb'
    rw [State.cursor_eq, State.setBlock_block_same]
    refine ⟨Nat.succ_pos _, fun i hlt => ?_⟩
    rw [State.setBlock_buf, Memory.lookup_write]
    by_cases hic : i.val = s.cursor b
    · simp [hic]
    · have hlt : i.val < s.cursor b := by
        have hlt' : i.val < s.cursor b + 1 := hlt
        omega
      obtain ⟨-, hwritten⟩ := howned b (hopen b hf (by omega))
      simpa [hic] using hwritten i hlt
  · by_cases hbb : b' = b
    · exact congrArg some hbb.symm
    · rw [State.isFinalized_eq, State.setBlock_block_other _ hbb] at hf'
      rw [State.cursor_eq, State.setBlock_block_other _ hbb] at hc'
      rcases interleaves_eq_false hi (hopen b' hf' hc') with he | hfin
      · exact absurd he hbb
      · exact absurd (hfin.symm.trans hf') (by simp)

theorem commandOf_done_keeps_bufferInv (hs : s.BufferInv) (h : commandOf q s = .done t r) : t.BufferInv := by
  by_cases hq : ∃ w, q = .emit w
  · obtain ⟨w, rfl⟩ := hq
    exact emit_done_keeps_bufferInv hs h
  · obtain ⟨hkept, -⟩ := commandOf_done_keeps_buffer_and_selection h
    obtain ⟨hbuf, howner⟩ := hkept.resolve_right hq
    refine hs.of_kept hbuf howner (fun b => ?_) (fun b hf => ?_)
    · rcases commandOf_done_block h b with hkept | ⟨-, hedit⟩
      · exact congrArg Block.cursor hkept
      · exact hedit.cursor_cases.resolve_right fun ⟨hemit, _⟩ => hq hemit
    · rcases commandOf_done_block h b with hkept | ⟨-, hedit⟩
      · exact (congrArg Block.finalized hkept).symm.trans hf
      · by_contra hs'
        have hfin := hedit.finalized_of_finalized (by simpa [State.isFinalized_eq] using hs')
        exact absurd (hfin.symm.trans hf) (by simp)

/-! ### The selection -/

/-- R28: a command that is done leaves a selected descriptor selected. -/
theorem commandOf_done_keeps_selected (h : commandOf q s = .done t r) (hd : (s.desc b u).isSelected = true) :
    (t.desc b u).isSelected = true := by
  rw [State.desc_eq] at hd ⊢
  rcases commandOf_done_block h b with hkept | ⟨-, hedit⟩
  · rwa [hkept]
  · exact (hedit.descEdit u).isSelected hd

/-- R184: a selected unit has a program in the selected block; SELECT_BLOCK clears the unit and SELECT_UNIT begins its
program. -/
theorem commandOf_done_selected (hs : s.BuildInv) (h : commandOf q s = .done t r) (hu : t.activeUnit = some u) :
    ∃ b, t.activeBlock = some b ∧ (t.desc b u).isSelected = true := by
  obtain ⟨-, ⟨hab, hau⟩ | ⟨n, rfl⟩ | ⟨n, rfl⟩⟩ := commandOf_done_keeps_buffer_and_selection h
  · obtain ⟨b, hb, hd⟩ := hs.selected u (hau ▸ hu)
    exact ⟨b, hab.trans hb, commandOf_done_keeps_selected h hd⟩
  · obtain ⟨b, -, rfl, -⟩ := selectBlock_done h
    cases hu
  · obtain ⟨b, v, -, hb, -, -, -, rfl⟩ := selectUnit_done h
    obtain rfl : v = u := Option.some.inj hu
    refine ⟨b, hb, ?_⟩
    rw [State.desc_eq, State.setDesc_block, if_pos rfl, Block.descOf_set, if_pos rfl]
    rfl

/-! ### The steps -/

theorem commandOf_done_keeps_buildInv (hs : s.BuildInv) (h : commandOf q s = .done t r) : t.BuildInv where
  blocks b := by
    rcases commandOf_done_block h b with hkept | ⟨-, hedit⟩
    · rw [hkept]; exact hs.blocks b
    · exact hedit.keeps_inv (hs.blocks b)
  buffer := commandOf_done_keeps_bufferInv hs.buffer h
  selected _ hu := commandOf_done_selected hs h hu

/-- Every step keeps the part of the invariant that does not read the status. -/
theorem step_next_keeps_buildInv (h : s.requests = q :: rest) (hs : s.BuildInv) (hn : step s = .next t) :
    t.BuildInv := by
  by_cases hq : q = .sessionStart
  · subst hq
    obtain rfl := step_next_of_sessionStart h hn
    exact State.reset_buildInv.of_sameBuild (State.sameBuild_reset_sessionStart _)
  · rcases step_next_sameBuild_or_done h hq hn with hsame | ⟨t', r, hd, rfl⟩
    · exact hs.of_sameBuild hsame
    · have haccept : (s.accept q rest).BuildInv := hs.of_sameBuild ⟨rfl, rfl, rfl, rfl, rfl⟩
      exact (commandOf_done_keeps_buildInv haccept hd).of_sameBuild ⟨rfl, rfl, rfl, rfl, rfl⟩

/-- R222: no step brings `SESSION_ABORTED` into the status. -/
theorem step_next_status_ne_sessionAborted (h : s.requests = q :: rest)
    (hs : s.status ≠ .aborted .sessionAborted) (hn : step s = .next t) : t.status ≠ .aborted .sessionAborted := by
  cases hst : s.status with
  | running =>
    obtain ⟨r, -, ⟨e, -, he, ht⟩ | ⟨-, ht⟩⟩ := step_next_status_of_running h hst hn
    · simpa [ht] using he
    · simp [ht]
  | aborted e =>
    by_cases hq : q = .sessionStart
    · subst hq
      obtain rfl := step_next_of_sessionStart h hn
      simp
    · rw [step_next_status_of_aborted h hst hq hn, ← hst]
      exact hs

/-- A step that serves a request ends its DECODE. -/
theorem step_next_decoding (h : s.requests = q :: rest) (hn : step s = .next t) : t.decoding = none := by
  rcases step_next_cases h hn with
    ⟨-, r, -, rfl⟩ | ⟨-, rfl⟩ | ⟨-, rfl⟩ | ⟨-, e, -, rfl⟩ | ⟨-, t', r, -, rfl, -⟩
  · rfl
  · rfl
  · rfl
  · rfl
  · rfl

end Sys2Proof.Machine

section
open Sys2Proof Sys2Proof.Machine

/-- Settles O44: the build by what a command does to one block, to the buffer and to the selection; the status and the
DECODE at hand by what a step answers. -/
theorem stepKeepsTheInvariant : Obligations.StepKeepsTheInvariant := by
  unfold Obligations.StepKeepsTheInvariant
  intro s t hinv hn
  cases h : s.requests with
  | nil =>
    rw [step_idle h] at hn
    cases hn
    exact hinv
  | cons q rest =>
    obtain ⟨hbuild, hstatus, -⟩ := State.inv_iff.mp hinv
    exact State.inv_iff.mpr ⟨step_next_keeps_buildInv h hbuild hn,
      step_next_status_ne_sessionAborted h hstatus hn, step_next_decoding h hn⟩

/-- Settles O47: a block is kept or edited, and only an EMIT's edit moves the cursor. -/
theorem onlyEmitMovesACursor : Obligations.OnlyEmitMovesACursor := by
  unfold Obligations.OnlyEmitMovesACursor
  intro s t q rest h hq hn b
  rcases step_next_block h hq hn b with hkept | ⟨hb, hedit⟩
  · exact .inl (congrArg Block.cursor hkept)
  · exact hedit.cursor_cases.imp id fun ⟨hemit, hc⟩ => ⟨hemit, hb, hc⟩

/-- Settles O48: an edit of the active block moves each descriptor along the state machine. -/
theorem descriptorsFollowTheStateMachine : Obligations.DescriptorsFollowTheStateMachine := by
  unfold Obligations.DescriptorsFollowTheStateMachine
  intro s t q rest hinv h hq hn b u
  simp only [State.desc_eq]
  rcases step_next_block h hq hn b with hkept | ⟨hb, hedit⟩
  · exact .inl (by rw [hkept])
  · obtain ⟨hblocks, -⟩ := hinv
    obtain ⟨-, hsound, -⟩ := hblocks b
    rcases (hedit.descEdit u).phase?_cases (hsound u) with
      hp | ⟨hsel, hnf, hp⟩ | ⟨hcfg, hu, hd, hp⟩ | ⟨hfin, hd, hp⟩
    · exact .inl hp
    · exact .inr (.inl ⟨hsel, hb, hnf, hp⟩)
    · exact .inr (.inr (.inl ⟨hcfg, hb, hu, hd, hp⟩))
    · exact .inr (.inr (.inr ⟨hfin, hb, hd, hp⟩))

/-- Settles O49: an edit of the active block by anything but a SELECT_UNIT of that unit keeps what its marker does not
record. -/
theorem offsetsChangeOnlyByTheirMarkers : Obligations.OffsetsChangeOnlyByTheirMarkers := by
  unfold Obligations.OffsetsChangeOnlyByTheirMarkers
  intro s t q rest h hq hn b u p o hd hother
  rw [State.desc_eq] at hd ⊢
  rcases step_next_block h hq hn b with hkept | ⟨hb, hedit⟩
  · exact ⟨p, o, by rw [hkept, hd], rfl, .inl rfl, .inl rfl, .inl rfl, .inl rfl⟩
  · have hdesc := hedit.descEdit u
    rw [hd] at hdesc
    exact hdesc.offsets (hother.resolve_right fun hne => hne hb)

/-- Settles O58: SESSION_START gives the power-on status; the other clauses are the two kinds of session. -/
theorem statusHoldsTheFirstError : Obligations.StatusHoldsTheFirstError := by
  unfold Obligations.StatusHoldsTheFirstError
  intro s t q rest h hn
  refine ⟨fun hq => ?_, fun hs => step_next_status_of_running h hs hn,
    fun e hs hq => step_next_status_of_aborted h hs hq hn⟩
  subst hq
  obtain rfl := step_next_of_sessionStart h hn
  rfl

/-- Settles O24: power-on field by field, and SESSION_START gives the same build. -/
theorem resetHoldsTheSessionStartValues : Obligations.ResetHoldsTheSessionStartValues := by
  unfold Obligations.ResetHoldsTheSessionStartValues
  refine ⟨⟨rfl, rfl, rfl, rfl, fun i => rfl, fun b => ?_⟩, fun s rest h => ?_⟩
  · simp only [State.cursor_eq, State.isFinalized_eq, State.desc_eq, State.reset_block, Block.fresh_descOf]
    exact ⟨rfl, rfl, rfl, fun i => rfl, fun u => trivial⟩
  · exact ⟨_, step_sessionStart h, State.sameBuild_reset_sessionStart _, rfl⟩

/-- Settles O43: power-on has fresh blocks, an empty buffer and no selection. -/
theorem resetMeetsTheInvariant : Obligations.ResetMeetsTheInvariant := by
  unfold Obligations.ResetMeetsTheInvariant
  exact State.inv_iff.mpr ⟨State.reset_buildInv, by simp [State.reset], rfl⟩

end
end

section
/-!
Proofs of the statements from spec/20_memory.md: which units a step can enable (R32, R61), and what FINALIZE leaves in
the image of the words emitted before it (R56).
-/

namespace Sys2Proof.Machine

variable {s t u : State} {q : Request} {rest : List Request} {b : BlockIdx} {k k' : Block}
variable {active : Option UnitIdx} {buf : Memory} {w : Word} {ws : List Word}

/-! ## The enable mask -/

/-- R193: every unit of a mask that ENABLE accepts has a finalized program. -/
theorem startsOf_finalized {m : Nat} {starts : List (UnitIdx × Nat)} (hs : startsOf k (maskUnits m) = some starts)
    {u : UnitIdx} (hu : (BitVec.ofNat Config.numUnits m).getLsbD u = true) :
    ∃ o, k.descOf u = .selected .finalized o := by
  rw [BitVec.getLsbD_ofNat, Bool.and_eq_true] at hu
  obtain ⟨-, hbit⟩ := hu
  obtain ⟨hbuilt, -⟩ := startsOf_some hs
  exact Descriptor.finalOffsets_iff.mp (hbuilt u (mem_maskUnits hbit))

/-- R32, R193: an edit keeps the enable mask, or is an ENABLE's in a finalized block and adds units with a finalized
program. -/
theorem BlockEdit.enabled_cases (h : BlockEdit k active buf q k') :
    k'.enabled = k.enabled ∨
      ((∃ m, q = .enable m) ∧ k.finalized = true ∧
        ∃ bits, k'.enabled = k.enabled ||| bits ∧
          ∀ u : UnitIdx, bits.getLsbD u = true → ∃ o, k.descOf u = .selected .finalized o) := by
  cases h with
  | selectUnit => exact .inl rfl
  | mark => exact .inl rfl
  | emit => exact .inl rfl
  | configure => exact .inl rfl
  | finalize => exact .inl rfl
  | enable hf hs => exact .inr ⟨⟨_, rfl⟩, hf, _, rfl, fun _ hu => startsOf_finalized hs hu⟩

/-- R32, R61: a step other than SESSION_START keeps a block's enable mask, or is an ENABLE of that block, the active
one and finalized, and adds units with a finalized program. -/
theorem step_next_enabled (h : s.requests = q :: rest) (hq : q ≠ .sessionStart) (hn : step s = .next t)
    (b : BlockIdx) :
    (t.block b).enabled = (s.block b).enabled ∨
      ((∃ m, q = .enable m) ∧ s.activeBlock = some b ∧ s.isFinalized b = true ∧
        ∃ bits, (t.block b).enabled = (s.block b).enabled ||| bits ∧
          ∀ u : UnitIdx, bits.getLsbD u = true → ∃ o, s.desc b u = .selected .finalized o) := by
  rcases step_next_block h hq hn b with hkept | ⟨hb, hedit⟩
  · exact .inl (congrArg Block.enabled hkept)
  · exact hedit.enabled_cases.imp id fun ⟨hm, hf, hbits⟩ => ⟨hm, hb, hf, hbits⟩

/-! ## Steps and runs that end in a running session -/

/-- R30: a step other than SESSION_START that ends in a running session began in one. -/
theorem step_next_running (h : s.requests = q :: rest) (hq : q ≠ .sessionStart) (hn : step s = .next t)
    (ht : t.status = .running) : s.status = .running := by
  cases hs : s.status with
  | running => rfl
  | aborted e =>
    have haborted := step_next_status_of_aborted h hs hq hn
    rw [ht] at haborted
    cases haborted

/-- R222: a calculator request that leaves the session running was done. -/
theorem step_next_done_of_running (h : s.requests = q :: rest) (hq : q.isCommand = true) (hn : step s = .next t)
    (ht : t.status = .running) : ∃ t' r, commandOf q (s.accept q rest) = .done t' r ∧ t = t'.respond r := by
  rcases step_next_cases h hn with
    ⟨⟨i, rfl⟩ | ⟨w, o, rfl⟩, -⟩ | ⟨rfl, -⟩ | ⟨⟨e, he⟩, rfl⟩ | ⟨-, e, -, rfl⟩ | ⟨-, t', r, hd, rfl, -⟩
  · cases hq
  · cases hq
  · cases hq
  · exact absurd (he.symm.trans ht) (by simp)
  · cases ht
  · exact ⟨t', r, hd, rfl⟩

/-- A run of any machine that ends in a state is one step and the run of the rest. -/
theorem run_succ_eq_next_iff {M : Host.Core} {n : Nat} {s t : M.State} :
    M.run (n + 1) s = .next t ↔ ∃ u, M.step s = .next u ∧ M.run n u = .next t := by
  rw [Host.Core.run]
  cases M.step s <;> simp

theorem runFrom_succ_eq_next_iff {n : Nat} :
    runFrom (n + 1) s = .next t ↔ ∃ u, step s = .next u ∧ runFrom n u = .next t :=
  run_succ_eq_next_iff

/-- A run that ends in a state, cut after its first `m` steps. -/
theorem runFrom_add_next {m n : Nat} (h : runFrom (m + n) s = .next t) :
    ∃ u, runFrom m s = .next u ∧ runFrom n u = .next t := by
  induction m generalizing s with
  | zero => exact ⟨s, rfl, by simpa using h⟩
  | succ m ih =>
    rw [Nat.succ_add] at h
    obtain ⟨v, hv, h⟩ := runFrom_succ_eq_next_iff.mp h
    obtain ⟨u, hu, h⟩ := ih h
    exact ⟨u, runFrom_succ_eq_next_iff.mpr ⟨v, hv, hu⟩, h⟩

/-- R10: a run takes the requests it serves off the stream. -/
theorem runFrom_requests {qs : List Request} (h : s.requests = qs ++ rest) (hn : runFrom qs.length s = .next t) :
    t.requests = rest := by
  induction qs generalizing s with
  | nil => cases hn; exact h
  | cons q qs ih =>
    obtain ⟨u, hu, hn⟩ := runFrom_succ_eq_next_iff.mp hn
    obtain ⟨hreq, -⟩ := step_next_answers_once h hu
    exact ih hreq hn

/-- R30: a run of requests other than SESSION_START that ends in a running session began in one. -/
theorem runFrom_running {qs : List Request} (hqs : ∀ q ∈ qs, q ≠ .sessionStart) (h : s.requests = qs ++ rest)
    (hn : runFrom qs.length s = .next t) (ht : t.status = .running) : s.status = .running := by
  induction qs generalizing s with
  | nil => cases hn; exact ht
  | cons q qs ih =>
    obtain ⟨hq, hqs⟩ := List.forall_mem_cons.mp hqs
    obtain ⟨u, hu, hn⟩ := runFrom_succ_eq_next_iff.mp hn
    obtain ⟨hreq, -⟩ := step_next_answers_once h hu
    exact step_next_running h hq hu (ih hqs hreq hn)

/-! ## EMITs -/

/-- `EmittedInto b ws s t`: as far as its active block `b`, not finalized, and the staging buffer go, `t` is `s` after
EMITs of the words `ws`, none failing. -/
structure EmittedInto (b : BlockIdx) (ws : List Word) (s t : State) : Prop where
  activeBlock : t.activeBlock = some b
  notFinalized : t.isFinalized b = false
  cursor : t.cursor b = s.cursor b + ws.length
  buf : t.buf = s.buf.writeFrom (s.cursor b) ws
  imem : (t.block b).imem = (s.block b).imem

theorem EmittedInto.nil (hb : s.activeBlock = some b) (hf : s.isFinalized b = false) : EmittedInto b [] s s :=
  ⟨hb, hf, rfl, rfl, rfl⟩

theorem EmittedInto.cons (h : EmittedInto b [w] s u) (h' : EmittedInto b ws u t) : EmittedInto b (w :: ws) s t where
  activeBlock := h'.activeBlock
  notFinalized := h'.notFinalized
  cursor := by rw [h'.cursor, h.cursor, List.length_singleton, List.length_cons]; omega
  buf := by rw [h'.buf, h.buf, h.cursor]; rfl
  imem := h'.imem.trans h.imem

/-- R189: an EMIT that does not fail writes its word at the cursor of the active block and moves that cursor by one. -/
theorem step_emit_running (hb : s.activeBlock = some b) (h : s.requests = .emit w :: rest) (hn : step s = .next t)
    (ht : t.status = .running) : EmittedInto b [w] s t := by
  obtain ⟨t', r, hd, rfl⟩ := step_next_done_of_running h rfl hn ht
  obtain ⟨b', v, hb', hf, -, -, -, -, -, rfl⟩ := emit_done hd
  obtain rfl : b = b' := Option.some.inj (hb.symm.trans hb')
  refine ⟨hb, ?_, ?_, rfl, ?_⟩
  · simpa [State.isFinalized_eq] using hf
  · simp [State.cursor_eq]
  · simp

/-- R189 over a run: EMITs of which none fails write their words from the cursor on. -/
theorem runFrom_emits (hb : s.activeBlock = some b) (hf : s.isFinalized b = false)
    (h : s.requests = ws.map Request.emit ++ rest) (hn : runFrom ws.length s = .next t) (ht : t.status = .running) :
    EmittedInto b ws s t := by
  induction ws generalizing s with
  | nil => cases hn; exact .nil hb hf
  | cons w ws ih =>
    obtain ⟨u, hu, hn⟩ := runFrom_succ_eq_next_iff.mp hn
    obtain ⟨hreq, -⟩ := step_next_answers_once h hu
    have hrun : u.status = .running :=
      runFrom_running (qs := ws.map Request.emit) (by simp) hreq (by simpa using hn) ht
    have hone := step_emit_running hb h hu hrun
    exact hone.cons (ih hone.activeBlock hone.notFinalized hreq hn)

/-! ## The image after FINALIZE -/

/-- R31, R38: the image of a block that is not finalized is `UNWRITTEN` at every index. -/
theorem Block.Inv.imem_unwritten (hk : k.Inv) (hf : k.finalized = false) (i : Nat) : k.imem.lookup i = none := by
  obtain ⟨-, -, hwf, himem, -⟩ := hk
  by_cases hi : i < Config.capacity
  · simpa [hf] using himem ⟨i, hi⟩
  · exact Memory.lookup_outside hwf (Nat.le_of_not_lt hi)

/-- R51, R192: the loaded image holds the words from index 0 on, and is as it was above them. -/
theorem State.loadBlock_image (s : State) (b : BlockIdx) (ws : List Word) (i : Nat) :
    ((s.loadBlock b ws).block b).imem.lookup i = if i < ws.length then ws[i]? else (s.block b).imem.lookup i := by
  simp [State.loadBlock_block, Memory.lookup_writeFrom]

/-- R56, R192: a FINALIZE that does not fail finalizes the active block, keeps its cursor and copies the staging buffer
below the cursor over its image. -/
theorem step_finalize_running (hb : s.activeBlock = some b) (h : s.requests = .finalize :: rest)
    (hn : step s = .next t) (ht : t.status = .running) :
    t.isFinalized b = true ∧ t.cursor b = s.cursor b ∧
      ∀ i, (t.block b).imem.lookup i = if i < s.cursor b then s.buf.lookup i else (s.block b).imem.lookup i := by
  obtain ⟨t', r, hd, rfl⟩ := step_next_done_of_running h rfl hn ht
  obtain ⟨b', ws, hb', -, -, hws, -, rfl⟩ := finalize_done hd
  obtain rfl : b = b' := Option.some.inj (hb.symm.trans hb')
  obtain ⟨hlen, -, hread⟩ := bufferWords_ok hws
  rw [State.cursor_eq, State.accept_block, ← State.cursor_eq] at hlen
  refine ⟨?_, ?_, fun i => ?_⟩
  · simp [State.isFinalized_eq, State.loadBlock_block]
  · simp [State.cursor_eq, State.loadBlock_block]
  · rw [State.respond_block, State.loadBlock_image, hlen]
    by_cases hi : i < s.cursor b
    · rw [if_pos hi, if_pos hi]
      exact (hread i hi).symm
    · rw [if_neg hi, if_neg hi, State.accept_block]

end Sys2Proof.Machine

section
open Sys2Proof Sys2Proof.Machine

/-- Settles O53: a block is kept or edited, and only the edit of an ENABLE, in a finalized block, adds bits to the mask,
those of finalized programs. -/
theorem unitsAreEnabledOnlyAfterFinalize : Obligations.UnitsAreEnabledOnlyAfterFinalize := by
  unfold Obligations.UnitsAreEnabledOnlyAfterFinalize
  intro s t q rest b u h hq hn
  rcases step_next_enabled h hq hn b with hmask | ⟨hm, hb, hf, bits, hmask, hbuilt⟩
  · rw [hmask]
    exact ⟨id, fun hoff hon => absurd (hoff.symm.trans hon) Bool.false_ne_true⟩
  · rw [hmask, BitVec.getLsbD_or, Bool.or_eq_true]
    refine ⟨.inl, fun hoff hon => ⟨hm, hb, hf, hbuilt u (hon.resolve_left fun h => ?_)⟩⟩
    exact Bool.false_ne_true (hoff.symm.trans h)

/-- Settles O56: the EMITs write their words into the buffer from the cursor on, and FINALIZE copies the buffer below the
cursor over an image that the invariant says is not written yet. -/
theorem emittedWordsReachTheImage : Obligations.EmittedWordsReachTheImage := by
  unfold Obligations.EmittedWordsReachTheImage
  intro s t b ws rest hinv hb hf h hn ht
  obtain ⟨v, hemits, hfin⟩ := runFrom_add_next hn
  obtain ⟨t', hstep, hfin⟩ := runFrom_succ_eq_next_iff.mp hfin
  cases hfin
  have hreq : v.requests = .finalize :: rest := runFrom_requests h (by simpa using hemits)
  have hem := runFrom_emits hb hf h hemits (step_next_running hreq (by simp) hstep ht)
  obtain ⟨hfinal, hcur, himage⟩ := step_finalize_running hem.activeBlock hreq hstep ht
  obtain ⟨hblocks, -⟩ := hinv
  have himem := (hblocks b).imem_unwritten hf
  simp only [hem.cursor, hem.buf, hem.imem, himem, Memory.lookup_writeFrom] at hcur himage
  refine ⟨hfinal, hcur, fun i hi => ?_, fun j hj => ?_, fun i hi => ?_⟩
  · rw [himage, if_pos (by omega), if_neg (by omega)]
  · rw [himage, if_pos (by omega), if_pos (by omega), Nat.add_sub_cancel_left]
  · rw [himage, if_neg (by omega)]

end
end

section
/-!
Proofs of the statements from spec/30_encoding.md: the no-op word (R91), the opcode map (R92, R96), the decoded record
(R93) and the ignored bits (R94).
-/

namespace Sys2Proof

variable {w v b m m' : Word} {lo n : Nat} {f : Form}

/-! ## Words that agree on a mask -/

/-- Two words have the same bits wherever the mask `m` is 1. -/
abbrev AgreeOn (m w v : Word) : Prop := w &&& m = v &&& m

theorem and_eq_iff_agreeOn (h : b &&& m = b) : w &&& m = b ↔ AgreeOn m w b := by rw [AgreeOn, h]

theorem and_eq_zero_iff_agreeOn : w &&& m = 0 ↔ AgreeOn m w 0 := and_eq_iff_agreeOn BitVec.zero_and

theorem AgreeOn.mono (h : AgreeOn m w v) (hm : m &&& m' = m') : AgreeOn m' w v := by
  rw [AgreeOn, ← hm, ← BitVec.and_assoc, ← BitVec.and_assoc, h]

theorem agreeOn_zero : AgreeOn 0 w v := BitVec.and_zero.trans BitVec.and_zero.symm

theorem agreeOn_or_iff : AgreeOn (m ||| m') w v ↔ AgreeOn m w v ∧ AgreeOn m' w v := by
  refine ⟨fun h => ⟨h.mono ?_, h.mono ?_⟩, fun ⟨h, h'⟩ => ?_⟩
  · ext i; simp +contextual
  · ext i; simp +contextual
  · rw [AgreeOn, BitVec.and_or_distrib_left, BitVec.and_or_distrib_left, h, h']

/-- The mask that is 1 at the bits of one field. -/
def fieldMask (lo n : Nat) : Word := (BitVec.allOnes n).setWidth 16 <<< lo

theorem getLsbD_fieldMask (lo n i : Nat) :
    (fieldMask lo n).getLsbD i = (decide (i < 16) && decide (lo ≤ i) && decide (i < lo + n)) := by
  simp only [fieldMask, BitVec.getLsbD_shiftLeft, BitVec.getLsbD_setWidth, BitVec.getLsbD_allOnes]
  grind

theorem field_testBit (w : Word) (lo n i : Nat) :
    (field w lo n).testBit i = (decide (i < n) && w.getLsbD (lo + i)) := by
  rw [field_eq_extract, BitVec.testBit_toNat, BitVec.getLsbD_extractLsb']

/-- Agreement on the mask of a field is equality of the field: both say that the bits from `lo` to `lo + n - 1` are
the same. -/
theorem agreeOn_fieldMask_iff : AgreeOn (fieldMask lo n) w v ↔ field w lo n = field v lo n := by
  constructor
  · intro h
    refine Nat.eq_of_testBit_eq fun i => ?_
    have hbit := congrArg (·.getLsbD (lo + i)) h
    simp only [BitVec.getLsbD_and, getLsbD_fieldMask] at hbit
    simp only [field_testBit]
    grind
  · intro h
    refine BitVec.eq_of_getLsbD_eq fun i hi => ?_
    have hbit := congrArg (·.testBit (i - lo)) h
    simp only [field_testBit] at hbit
    simp only [BitVec.getLsbD_and, getLsbD_fieldMask]
    grind

/-- The mask that is 1 at the bits of the fields given by their lowest bit and width. -/
def fieldsMask (ps : List (Nat × Nat)) : Word := ps.foldr (fun p m => fieldMask p.1 p.2 ||| m) 0

theorem agreeOn_fieldsMask_iff {ps : List (Nat × Nat)} :
    AgreeOn (fieldsMask ps) w v ↔ ∀ p ∈ ps, field w p.1 p.2 = field v p.1 p.2 := by
  induction ps with
  | nil => exact iff_of_true agreeOn_zero (List.forall_mem_nil _)
  | cons p ps ih =>
    rw [List.forall_mem_cons, ← ih, ← agreeOn_fieldMask_iff, ← agreeOn_or_iff]
    rfl

/-! ## What selects a form -/

/-- The fields that a form's row of the opcode map fixes, as lowest bit, width and value (R71, R77, R91). -/
def Form.selectors (f : Form) : List (Nat × Nat × Nat) :=
  match f with
  | .jmp => [(13, 3, 0)]
  | .wait => [(13, 3, 1)]
  | .inp => [(13, 3, 2)]
  | .out => [(13, 3, 3)]
  | .push => [(13, 3, 4), (4, 1, 0), (7, 1, 0)]
  | .pull => [(13, 3, 4), (4, 1, 0), (7, 1, 1)]
  | .movToRx => [(13, 3, 4), (4, 1, 1), (7, 1, 0)]
  | .movFromRx => [(13, 3, 4), (4, 1, 1), (7, 1, 1)]
  | .mov => [(13, 3, 5)]
  | .nop => [(13, 3, 5), (0, 8, 0x42)]
  | .irq => [(13, 3, 6)]
  | .set => [(13, 3, 7)]

/-- The word holds every field value that selects the form. -/
abbrev Form.Selects (f : Form) (w : Word) : Prop := ∀ p ∈ f.selectors, field w p.1 p.2.1 = p.2.2

theorem field_one_cases (w : Word) (lo : Nat) : field w lo 1 = 0 ∨ field w lo 1 = 1 :=
  Nat.mod_two_eq_zero_or_one (w.toNat / 2 ^ lo)

/-- The selecting fields hold in every branch of the decoder's choice (R92). -/
theorem formOf_selects (w : Word) : (formOf w).Selects w ∧ (formOf w = .mov → field w 0 8 ≠ 0x42) := by
  unfold formOf
  split
  case h_5 hc =>
    rcases field_one_cases w 4 with h4 | h4 <;> rcases field_one_cases w 7 with h7 | h7 <;>
      simp [Form.Selects, Form.selectors, hc, h4, h7]
  case h_6 hc =>
    by_cases hb : field w 0 8 = 0x42 <;> simp [Form.Selects, Form.selectors, hc, hb]
  case h_8 =>
    have hc : field w 13 3 = 7 := by
      have hlt := field_lt w 13 3
      grind
    simp [Form.Selects, Form.selectors, hc]
  all_goals simp [Form.Selects, Form.selectors, *]

/-- R92: a word is of the form whose fields select it, and of `mov` only when it is not the no-op's. -/
theorem formOf_eq_iff : formOf w = f ↔ f.Selects w ∧ (f = .mov → field w 0 8 ≠ 0x42) := by
  refine ⟨fun h => h ▸ formOf_selects w, fun ⟨h, hmov⟩ => ?_⟩
  cases f <;> simp_all [Form.Selects, Form.selectors, formOf]

/-- The fields that select a form select no other, but for `mov` and the no-op. -/
theorem Form.selects_iff : f.Selects w ↔ f = formOf w ∨ (f = .mov ∧ formOf w = .nop) := by
  constructor
  · intro h
    by_cases hf : f = .mov ∧ field w 0 8 = 0x42
    · obtain ⟨rfl, hb⟩ := hf
      refine .inr ⟨rfl, formOf_eq_iff.mpr ⟨?_, nofun⟩⟩
      simpa [Form.Selects, Form.selectors, hb] using h
    · exact .inl (formOf_eq_iff.mpr ⟨h, fun hm hb => hf ⟨hm, hb⟩⟩).symm
  · rintro (rfl | ⟨rfl, h⟩)
    · exact (formOf_selects w).1
    · have hn : Form.nop.Selects w := h ▸ (formOf_selects w).1
      obtain ⟨hcls, -⟩ := List.forall_mem_cons.mp hn
      exact List.forall_mem_singleton.mpr hcls

/-! ## The opcode map -/

/-- A row of the opcode map fixes the fields that select its form (R96). -/
theorem row_matches_iff_selects {r : OpcodeRow} (hr : r ∈ opcodeMap) :
    w &&& r.mask = r.bits ↔ r.form.Selects w := by
  have hmask : ∀ r ∈ opcodeMap, r.mask = fieldsMask (r.form.selectors.map fun p => (p.1, p.2.1)) := by decide
  have hbits : ∀ r ∈ opcodeMap, r.bits &&& r.mask = r.bits := by decide
  have hvals : ∀ r ∈ opcodeMap, r.form.Selects r.bits := by decide
  rw [and_eq_iff_agreeOn (hbits r hr), hmask r hr, agreeOn_fieldsMask_iff, List.forall_mem_map]
  exact forall₂_congr fun p hp => by rw [hvals r hr p hp]

/-- The rows that a word matches: the one of its form, and `mov`'s when the form is `nop`. -/
theorem row_matches_iff {r : OpcodeRow} (hr : r ∈ opcodeMap) :
    w &&& r.mask = r.bits ↔ r.form = formOf w ∨ (r.form = .mov ∧ formOf w = .nop) :=
  (row_matches_iff_selects hr).trans Form.selects_iff

/-- R92: of the rows that words of a form match, the first is the form's own. -/
theorem opcodeMap_find?_form (f : Form) :
    (opcodeMap.find? fun r => decide (r.form = f ∨ (r.form = .mov ∧ f = .nop))).map OpcodeRow.form = some f := by
  cases f <;> rfl

theorem mapRow_form (w : Word) : (mapRow w).map OpcodeRow.form = some (formOf w) := by
  rw [← opcodeMap_find?_form (formOf w), mapRow]
  congr 1
  refine List.find?_congr fun r hr => ?_
  rw [Bool.eq_iff_iff, beq_iff_eq, decide_eq_true_iff, row_matches_iff hr]

/-! ## The decoded record -/

theorem decodeWord_form (w : Word) : (decodeWord w).form = formOf w := by
  unfold decodeWord
  split <;> simp [Instr.form, *]

/-- The operand byte of the no-op pattern is `0x42` (R91). -/
theorem operandByte_of_isNopPattern (h : IsNopPattern (field w 5 3) (field w 3 2) (field w 0 3)) :
    field w 0 8 = 0x42 := by
  obtain ⟨hdst, hop, hsrc⟩ := h
  simp only [field] at *
  omega

/-- A word that decodes as `mov` is not the no-op's, so its operands are not the pattern's; every other operand is
bounded by the width of its field. -/
theorem decodeWord_wellFormed (w : Word) : (decodeWord w).WellFormed := by
  obtain ⟨-, hmov⟩ := formOf_selects w
  unfold decodeWord
  split
  case h_9 hf =>
    exact ⟨field_lt .., field_lt .., field_lt .., field_lt .., fun h => hmov hf (operandByte_of_isNopPattern h)⟩
  all_goals simp only [Instr.WellFormed, Fits, field_lt, and_self]

/-! ## What DECODE reads -/

/-- The fields that DECODE reads of a word of the form: class and delay, what else selects the form, and the operands
(R72 to R80). -/
def Form.fieldsRead (f : Form) : List (Nat × Nat) :=
  (13, 3) :: (8, 5) ::
  match f with
  | .jmp => [(5, 3), (0, 5)]
  | .wait => [(7, 1), (5, 2), (0, 5)]
  | .inp => [(5, 3), (0, 5)]
  | .out => [(5, 3), (0, 5)]
  | .push => [(4, 1), (7, 1), (6, 1), (5, 1)]
  | .pull => [(4, 1), (7, 1), (6, 1), (5, 1)]
  | .movToRx => [(4, 1), (7, 1), (3, 1), (0, 2)]
  | .movFromRx => [(4, 1), (7, 1), (3, 1), (0, 2)]
  | .mov => [(0, 8), (5, 3), (3, 2), (0, 3)]
  | .nop => [(0, 8)]
  | .irq => [(6, 1), (5, 1), (0, 5)]
  | .set => [(5, 3), (0, 5)]

/-- R94: no field that DECODE reads has an ignored bit. -/
theorem fieldsRead_not_ignored (f : Form) :
    ~~~ ignoredMask f &&& fieldsMask f.fieldsRead = fieldsMask f.fieldsRead := by
  cases f <;> decide

theorem selectors_subset_fieldsRead (f : Form) : ∀ p ∈ f.selectors, (p.1, p.2.1) ∈ f.fieldsRead := by
  cases f <;> decide

theorem formOf_congr (h : ∀ p ∈ (formOf w).fieldsRead, field w p.1 p.2 = field v p.1 p.2) :
    formOf v = formOf w := by
  obtain ⟨hsel, hmov⟩ := formOf_selects w
  refine formOf_eq_iff.mpr ⟨fun p hp => ?_, fun hf => ?_⟩
  · rw [← h _ (selectors_subset_fieldsRead _ p hp), hsel p hp]
  · rw [← h (0, 8) (by rw [hf]; decide)]
    exact hmov hf

/-- DECODE's record depends on the fields of `Form.fieldsRead` alone. -/
theorem decodeWord_congr (h : ∀ p ∈ (formOf w).fieldsRead, field w p.1 p.2 = field v p.1 p.2) :
    decodeWord v = decodeWord w := by
  have hform := formOf_congr h
  unfold decodeWord
  rw [hform]
  cases hf : formOf w <;> simp_all [Form.fieldsRead]

/-- R94: DECODE's mnemonic is made of its record, the class, the delay and the word. -/
theorem decodeMnemonic_congr (h : ∀ p ∈ (formOf w).fieldsRead, field w p.1 p.2 = field v p.1 p.2) (origin : Nat) :
    Machine.decodeMnemonic v origin = { Machine.decodeMnemonic w origin with word := v } := by
  have hcls : field w 13 3 = field v 13 3 := h (13, 3) (by simp [Form.fieldsRead])
  have hdelay : field w 8 5 = field v 8 5 := h (8, 5) (by simp [Form.fieldsRead])
  simp only [Machine.decodeMnemonic, Machine.mnemonicOf, decodeWord_congr h, hcls, hdelay]

/-! ## What ENCODE writes -/

/-- The operand bits that belong to no field, as fields of zeros (R77, R79). -/
def Form.ignoredFields (f : Form) : List (Nat × Nat) :=
  match f with
  | .push => [(0, 4)]
  | .pull => [(0, 4)]
  | .movToRx => [(5, 2), (2, 1)]
  | .movFromRx => [(5, 2), (2, 1)]
  | .irq => [(7, 1)]
  | .jmp => []
  | .wait => []
  | .inp => []
  | .out => []
  | .mov => []
  | .nop => []
  | .set => []

theorem ignoredMask_eq_fieldsMask (f : Form) : ignoredMask f = fieldsMask f.ignoredFields := by
  cases f <;> decide

theorem ignoredFields_in_operandByte (f : Form) : ∀ p ∈ f.ignoredFields, p.1 + p.2 ≤ 8 := by
  cases f <;> decide

/-- A record's word has zeros in the ignored fields when the operand byte packed into it does. -/
theorem ignoredFields_of_packWord {i : Instr} {operandByte : Nat}
    (h : encode i = packWord i.form.cls i.delay operandByte) (hb : operandByte < 256)
    (hz : ∀ p ∈ i.form.ignoredFields, operandByte / 2 ^ p.1 % 2 ^ p.2 = 0) :
    ∀ p ∈ i.form.ignoredFields, field (encode i) p.1 p.2 = 0 := by
  intro p hp
  rw [h, packWord_operand (Form.cls_lt _) hb (ignoredFields_in_operandByte _ p hp), hz p hp]

theorem encode_ignoredFields (i : Instr) : ∀ p ∈ i.form.ignoredFields, field (encode i) p.1 p.2 = 0 := by
  cases i with
  | push ifFull block delay =>
    refine ignoredFields_of_packWord rfl ?_ (List.forall_mem_singleton.mpr ?_) <;> simp only [mask] <;> omega
  | pull ifEmpty block delay =>
    refine ignoredFields_of_packWord rfl ?_ (List.forall_mem_singleton.mpr ?_) <;> simp only [mask] <;> omega
  | movToRx idxImm index delay =>
    refine ignoredFields_of_packWord rfl ?_ (List.forall_mem_cons.mpr ⟨?_, List.forall_mem_singleton.mpr ?_⟩) <;>
      simp only [mask] <;> omega
  | movFromRx idxImm index delay =>
    refine ignoredFields_of_packWord rfl ?_ (List.forall_mem_cons.mpr ⟨?_, List.forall_mem_singleton.mpr ?_⟩) <;>
      simp only [mask] <;> omega
  | irq clearBit waitBit index delay =>
    refine ignoredFields_of_packWord rfl ?_ (List.forall_mem_singleton.mpr ?_) <;> simp only [mask] <;> omega
  | _ => exact List.forall_mem_nil _

/-- R94: ENCODE writes the ignored bits 0. -/
theorem encode_and_ignoredMask (i : Instr) : encode i &&& ignoredMask i.form = 0 := by
  rw [and_eq_zero_iff_agreeOn, ignoredMask_eq_fieldsMask, agreeOn_fieldsMask_iff]
  intro p hp
  rw [encode_ignoredFields i p hp]
  simp [field]

/-! ## The no-op -/

/-- The no-op's word (R91); the delay enters it through its low 5 bits alone. -/
theorem encodeNop_eq (delay : Nat) : encodeNop delay = 0xA042 ||| (BitVec.ofNat 16 (delay % 32) <<< 8) := by
  have hword : ∀ d : Fin 32,
      BitVec.ofNat 16 (5 * 2 ^ 13 + d * 2 ^ 8 + 0x42) = 0xA042 ||| (BitVec.ofNat 16 d <<< 8) := by decide
  exact hword ⟨delay % 32, Nat.mod_lt _ (by decide)⟩

theorem formOf_encodeNop (delay : Nat) : formOf (encodeNop delay) = .nop := by
  refine formOf_eq_iff.mpr ⟨?_, nofun⟩
  have hcls : field (encodeNop delay) 13 3 = 5 := packWord_class (by decide) (by decide)
  have hbyte : field (encodeNop delay) 0 8 = 0x42 := packWord_operand (by decide) (by decide) (by decide)
  simp [Form.Selects, Form.selectors, hcls, hbyte]

theorem decodeWord_encodeNop (delay : Nat) : decodeWord (encodeNop delay) = .nop (mask 5 delay) := by
  simp only [decodeWord, formOf_encodeNop]
  rw [encodeNop, packWord_delay (by decide) (by decide)]

end Sys2Proof

section
open Sys2Proof Sys2Proof.Machine

/-- Settles O4: a row matches exactly the words whose fields select its form, and only `mov`'s do so for a word of
another form. -/
theorem opcodeMapGivesTheForm : Obligations.OpcodeMapGivesTheForm := by
  unfold Obligations.OpcodeMapGivesTheForm
  exact fun w => ⟨mapRow_form w, fun r hr => (row_matches_iff hr).mp⟩

/-- Settles O5, from the widths of the fields and R92's test for the no-op. -/
theorem everyWordDecodesToAWellFormedRecord : Obligations.EveryWordDecodesToAWellFormedRecord := by
  unfold Obligations.EveryWordDecodesToAWellFormedRecord
  exact fun w => ⟨decodeWord_wellFormed w, decodeWord_form w⟩

/-- Settles O6: words equal outside the ignored mask agree on every field that DECODE reads. -/
theorem ignoredBitsAreWrittenZeroAndNotRead : Obligations.IgnoredBitsAreWrittenZeroAndNotRead := by
  unfold Obligations.IgnoredBitsAreWrittenZeroAndNotRead
  refine ⟨encode_and_ignoredMask, fun w v origin h => ?_, fun f => by cases f <;> rfl⟩
  have hfields := agreeOn_fieldsMask_iff.mp (AgreeOn.mono h (fieldsRead_not_ignored (formOf w)))
  exact ⟨decodeWord_congr hfields, decodeMnemonic_congr hfields origin⟩

/-- Settles O3: the operand byte of the MOV is the no-op's, `0x42`, so both words are the same. -/
theorem nopIsTheMovOfYToY : Obligations.NopIsTheMovOfYToY := by
  unfold Obligations.NopIsTheMovOfYToY
  intro delay
  have hmov : encode (.mov 2 0 2 delay) = encodeNop delay := rfl
  rw [hmov]
  exact ⟨encodeNop_eq delay, rfl, decodeWord_encodeNop delay⟩

/-- Settles O8: each word is closed, and decoding it computes its record. -/
theorem writtenOutWordsDecodeAsTheSpecSays : Obligations.WrittenOutWordsDecodeAsTheSpecSays := by
  unfold Obligations.WrittenOutWordsDecodeAsTheSpecSays
  exact ⟨rfl, rfl, rfl, rfl, rfl, rfl, rfl, rfl, rfl, rfl, rfl, rfl⟩

end
end

section
/-!
Proofs of the statements from spec/40_codec.md: ENCODE's fields (R101, R102), the round trips (R110), and a step on a
codec request (R100, R103 to R107, R112).
-/

namespace Sys2Proof

variable {w v : Word} {lo n : Nat} {i : Instr}

/-! ## The operands of a record and the byte they are packed into -/

/-- The operands of a record, each as the lowest bit and the width of its field, and its value (R73 to R80). -/
def Instr.operands (i : Instr) : List (Nat × Nat × Nat) :=
  match i with
  | .jmp cond addr _ => [(5, 3, cond), (0, 5, addr)]
  | .wait pol src index _ => [(7, 1, pol), (5, 2, src), (0, 5, index)]
  | .inp src count _ => [(5, 3, src), (0, 5, count)]
  | .out dst count _ => [(5, 3, dst), (0, 5, count)]
  | .push ifFull block _ => [(6, 1, ifFull), (5, 1, block)]
  | .pull ifEmpty block _ => [(6, 1, ifEmpty), (5, 1, block)]
  | .movToRx idxImm index _ => [(3, 1, idxImm), (0, 2, index)]
  | .movFromRx idxImm index _ => [(3, 1, idxImm), (0, 2, index)]
  | .mov dst op src _ => [(5, 3, dst), (3, 2, op), (0, 3, src)]
  | .nop _ => []
  | .irq clearBit waitBit index _ => [(6, 1, clearBit), (5, 1, waitBit), (0, 5, index)]
  | .set dst data _ => [(5, 3, dst), (0, 5, data)]

/-- The operand byte of a record's word (R101); `encode_eq_packWord` ties it to ENCODE. -/
def Instr.operandByte (i : Instr) : Nat :=
  match i with
  | .jmp cond addr _ => mask 3 cond * 2 ^ 5 + mask 5 addr
  | .wait pol src index _ => mask 1 pol * 2 ^ 7 + mask 2 src * 2 ^ 5 + mask 5 index
  | .inp src count _ => mask 3 src * 2 ^ 5 + mask 5 count
  | .out dst count _ => mask 3 dst * 2 ^ 5 + mask 5 count
  | .push ifFull block _ => mask 1 ifFull * 2 ^ 6 + mask 1 block * 2 ^ 5
  | .pull ifEmpty block _ => 2 ^ 7 + mask 1 ifEmpty * 2 ^ 6 + mask 1 block * 2 ^ 5
  | .movToRx idxImm index _ => 2 ^ 4 + mask 1 idxImm * 2 ^ 3 + mask 2 index
  | .movFromRx idxImm index _ => 2 ^ 7 + 2 ^ 4 + mask 1 idxImm * 2 ^ 3 + mask 2 index
  | .mov dst op src _ => mask 3 dst * 2 ^ 5 + mask 2 op * 2 ^ 3 + mask 3 src
  | .nop _ => 0x42
  | .irq clearBit waitBit index _ => mask 1 clearBit * 2 ^ 6 + mask 1 waitBit * 2 ^ 5 + mask 5 index
  | .set dst data _ => mask 3 dst * 2 ^ 5 + mask 5 data

/-- R101: every form is packed alike. -/
theorem encode_eq_packWord (i : Instr) : encode i = packWord i.form.cls i.delay i.operandByte := by
  cases i <;> rfl

theorem Instr.operandByte_lt (i : Instr) : i.operandByte < 256 := by
  cases i <;> simp only [operandByte, mask] <;> omega

theorem Instr.operands_in_operandByte (i : Instr) : ∀ p ∈ i.operands, p.1 + p.2.1 ≤ 8 := by
  cases i <;> simp [operands]

/-- The fields of the operand byte do not overlap, so each holds its own operand. -/
theorem Instr.operandByte_operands (i : Instr) :
    ∀ p ∈ i.operands, i.operandByte / 2 ^ p.1 % 2 ^ p.2.1 = mask p.2.1 p.2.2 := by
  rw [← List.forall_iff_forall_mem]
  cases i <;> simp only [operands, operandByte, List.Forall, mask] <;> omega

/-- The class is the first field that selects a form; the others lie in the operand byte (R71, R77, R91). -/
theorem Form.selectors_eq_cons (f : Form) : f.selectors = (13, 3, f.cls) :: f.selectors.tail := by
  cases f <;> rfl

theorem Form.selectors_tail_in_operandByte (f : Form) : ∀ p ∈ f.selectors.tail, p.1 + p.2.1 ≤ 8 := by
  cases f <;> decide

theorem Instr.operandByte_selectors (i : Instr) :
    ∀ p ∈ i.form.selectors.tail, i.operandByte / 2 ^ p.1 % 2 ^ p.2.1 = p.2.2 := by
  rw [← List.forall_iff_forall_mem]
  cases i <;> simp only [Instr.form, Form.selectors, List.tail_cons, List.Forall, operandByte, mask] <;> omega

/-! ## The fields of an encoded record -/

theorem encode_class_and_delay (i : Instr) : Laws.ClassAndDelay.Statement i :=
  Laws.ClassAndDelay.of_packWord (encode_eq_packWord i) i.operandByte_lt

theorem field_encode (i : Instr) (h : lo + n ≤ 8) :
    field (encode i) lo n = i.operandByte / 2 ^ lo % 2 ^ n := by
  rw [encode_eq_packWord, packWord_operand (Form.cls_lt _) i.operandByte_lt h]

/-- R102: each operand field holds its operand, masked. -/
theorem encode_operands (i : Instr) : ∀ p ∈ i.operands, field (encode i) p.1 p.2.1 = mask p.2.1 p.2.2 := by
  intro p hp
  rw [field_encode i (i.operands_in_operandByte p hp), i.operandByte_operands p hp]

theorem encode_selects (i : Instr) : i.form.Selects (encode i) := by
  obtain ⟨hclass, -⟩ := encode_class_and_delay i
  rw [Form.Selects, Form.selectors_eq_cons, List.forall_mem_cons]
  refine ⟨hclass, fun p hp => ?_⟩
  rw [field_encode i (Form.selectors_tail_in_operandByte _ p hp), i.operandByte_selectors p hp]

/-- R92: only a MOV with the no-op's operand byte is not of its own form. -/
theorem formOf_encode (h : ¬ (i.form = .mov ∧ i.operandByte = 0x42)) : formOf (encode i) = i.form := by
  refine formOf_eq_iff.mpr ⟨encode_selects i, fun hmov hbyte => h ⟨hmov, ?_⟩⟩
  rw [field_encode i (by decide)] at hbyte
  have hlt := i.operandByte_lt
  omega

/-! ## Reducing a record to its fields -/

/-- A record with every operand and the delay reduced to its field (R102), its form kept. -/
def Instr.reduced (i : Instr) : Instr :=
  match i with
  | .jmp cond addr delay => .jmp (mask 3 cond) (mask 5 addr) (mask 5 delay)
  | .wait pol src index delay => .wait (mask 1 pol) (mask 2 src) (mask 5 index) (mask 5 delay)
  | .inp src count delay => .inp (mask 3 src) (mask 5 count) (mask 5 delay)
  | .out dst count delay => .out (mask 3 dst) (mask 5 count) (mask 5 delay)
  | .push ifFull block delay => .push (mask 1 ifFull) (mask 1 block) (mask 5 delay)
  | .pull ifEmpty block delay => .pull (mask 1 ifEmpty) (mask 1 block) (mask 5 delay)
  | .movToRx idxImm index delay => .movToRx (mask 1 idxImm) (mask 2 index) (mask 5 delay)
  | .movFromRx idxImm index delay => .movFromRx (mask 1 idxImm) (mask 2 index) (mask 5 delay)
  | .mov dst op src delay => .mov (mask 3 dst) (mask 2 op) (mask 3 src) (mask 5 delay)
  | .nop delay => .nop (mask 5 delay)
  | .irq clearBit waitBit index delay => .irq (mask 1 clearBit) (mask 1 waitBit) (mask 5 index) (mask 5 delay)
  | .set dst data delay => .set (mask 3 dst) (mask 5 data) (mask 5 delay)

theorem mask_mask (n v : Nat) : mask n (mask n v) = mask n v := Nat.mod_mod v (2 ^ n)

theorem mask_eq_self_iff {n v : Nat} : mask n v = v ↔ Fits n v :=
  ⟨fun h => h ▸ mask_lt n v, mask_of_fits⟩

theorem packWord_mask_delay (cls delay operandByte : Nat) :
    packWord cls (mask 5 delay) operandByte = packWord cls delay operandByte := by
  rw [packWord, mask_mask, packWord]

theorem Instr.reduced_form (i : Instr) : i.reduced.form = i.form := by cases i <;> rfl

theorem Instr.reduced_delay (i : Instr) : i.reduced.delay = mask 5 i.delay := by cases i <;> rfl

theorem Instr.reduced_operandByte (i : Instr) : i.reduced.operandByte = i.operandByte := by
  cases i <;> simp only [reduced, operandByte, mask_mask]

/-- R102: ENCODE reads of a record only what fits its fields. -/
theorem encode_reduced (i : Instr) : encode i.reduced = encode i := by
  rw [encode_eq_packWord, encode_eq_packWord, i.reduced_form, i.reduced_delay, i.reduced_operandByte,
    packWord_mask_delay]

/-- R91: of the MOV operands in their fields, the no-op's are those with the operand byte `0x42`. -/
theorem isNopPattern_mask_iff (dst op src delay : Nat) :
    IsNopPattern (mask 3 dst) (mask 2 op) (mask 3 src) ↔ (Instr.mov dst op src delay).operandByte = 0x42 := by
  simp only [IsNopPattern, Instr.operandByte, mask]
  omega

/-- R110 items 1 and 2: the masked record is the reduced one, but for a MOV that is the no-op. -/
theorem Instr.masked_eq_ite (i : Instr) :
    i.masked = if i.form = .mov ∧ i.operandByte = 0x42 then .nop (mask 5 i.delay) else i.reduced := by
  cases i with
  | mov dst op src delay =>
    simp only [masked, isNopPattern_mask_iff dst op src delay, form, true_and]
    rfl
  | _ => rfl

theorem Instr.masked_of_wellFormed (h : i.WellFormed) : i.masked = i := by
  cases i with
  | mov dst op src delay =>
    obtain ⟨hdst, hop, hsrc, hdelay, hnop⟩ := h
    simp only [masked, mask_of_fits hdst, mask_of_fits hop, mask_of_fits hsrc, mask_of_fits hdelay, if_neg hnop]
  | _ => simpa [WellFormed, masked, mask_eq_self_iff] using h

/-! ## DECODE of ENCODE -/

theorem decodeWord_encode_of_formOf (h : formOf (encode i) = i.form) : decodeWord (encode i) = i.reduced := by
  obtain ⟨-, hdelay⟩ := encode_class_and_delay i
  have hops := encode_operands i
  rw [decodeWord, h]
  cases i <;> simp_all [Instr.form, Instr.operands, Instr.delay, Instr.reduced]

/-- R110 items 1 and 2. -/
theorem decodeWord_encode (i : Instr) : decodeWord (encode i) = i.masked := by
  rw [i.masked_eq_ite]
  split
  case isTrue h =>
    obtain ⟨hform, hbyte⟩ := h
    have hword : encode i = encodeNop i.delay := by
      rw [encode_eq_packWord, hform, hbyte]
      rfl
    rw [hword, decodeWord_encodeNop]
  case isFalse h => exact decodeWord_encode_of_formOf (formOf_encode h)

/-- R110 item 3. -/
theorem decodeWord_encode_of_wellFormed (h : i.WellFormed) : decodeWord (encode i) = i := by
  rw [decodeWord_encode, Instr.masked_of_wellFormed h]

/-! ## ENCODE of DECODE -/

theorem field_operandByte_of_mov_fields (w : Word) :
    field w 0 8 = field w 5 3 * 2 ^ 5 + field w 3 2 * 2 ^ 3 + field w 0 3 := by
  simp only [field]
  omega

/-- The converse of `decodeWord_congr`: the record holds every field that DECODE reads. -/
theorem fields_eq_of_decodeWord_eq (h : decodeWord w = decodeWord v) :
    ∀ p ∈ (formOf w).fieldsRead, field w p.1 p.2 = field v p.1 p.2 := by
  have hform : formOf v = formOf w := by rw [← decodeWord_form, ← decodeWord_form, h]
  obtain ⟨hw, -⟩ := formOf_selects w
  obtain ⟨hv, -⟩ := formOf_selects v
  rw [hform] at hv
  rw [decodeWord, decodeWord, hform] at h
  cases hf : formOf w with
  | mov => simp_all [Form.fieldsRead, Form.Selects, Form.selectors, field_operandByte_of_mov_fields]
  | _ => simp_all [Form.fieldsRead, Form.Selects, Form.selectors]

/-- The bits that DECODE reads of a form are all but the ignored ones (R94). -/
theorem fieldsMask_fieldsRead (f : Form) : fieldsMask f.fieldsRead = ~~~ ignoredMask f := by
  cases f <;> decide

theorem and_not_of_and_eq_zero {m : Word} (h : w &&& m = 0) : w &&& ~~~ m = w := by
  calc w &&& ~~~ m = (w &&& m) ||| (w &&& ~~~ m) := by rw [h]; exact BitVec.zero_or.symm
    _ = w &&& BitVec.allOnes 16 := by rw [← BitVec.and_or_distrib_left, BitVec.or_not_self]
    _ = w := BitVec.and_allOnes

/-- R110 item 4: the word encoded again decodes to the same record, so it has the same bits wherever DECODE reads, and
zeros elsewhere. -/
theorem encode_decodeWord (w : Word) : encode (decodeWord w) = w &&& ~~~ ignoredMask (formOf w) := by
  have hrecord : decodeWord w = decodeWord (encode (decodeWord w)) :=
    (decodeWord_encode_of_wellFormed (decodeWord_wellFormed w)).symm
  have hread : AgreeOn (~~~ ignoredMask (formOf w)) w (encode (decodeWord w)) := by
    rw [← fieldsMask_fieldsRead, agreeOn_fieldsMask_iff]
    exact fields_eq_of_decodeWord_eq hrecord
  have hzero : encode (decodeWord w) &&& ignoredMask (formOf w) = 0 := by
    rw [← decodeWord_form, encode_and_ignoredMask]
  rw [hread, and_not_of_and_eq_zero hzero]

/-! ## The fields as bits -/

theorem bitsAt_eq_field (w : Word) (lo n : Nat) : Machine.bitsAt w lo n = field w lo n :=
  (field_eq_extract w lo n).symm

theorem bitsAt_encode_delay (i : Instr) : Machine.bitsAt (encode i) 8 5 = i.delay % 32 := by
  obtain ⟨-, hdelay⟩ := encode_class_and_delay i
  exact (bitsAt_eq_field _ 8 5).trans hdelay

theorem bitsAt_encode_operands (i : Instr) :
    i.operands.Forall fun p => Machine.bitsAt (encode i) p.1 p.2.1 = p.2.2 % 2 ^ p.2.1 := by
  rw [List.forall_iff_forall_mem]
  intro p hp
  rw [bitsAt_eq_field, encode_operands i p hp, mask]

/-- A field of a word, put back into as many bits, is those bits. -/
theorem ofNat_field (w : Word) (lo n : Nat) : BitVec.ofNat n (field w lo n) = w.extractLsb' lo n := by
  rw [field_eq_extract, BitVec.ofNat_toNat, BitVec.setWidth_eq]

end Sys2Proof

namespace Sys2Proof.Machine

variable {s : State} {i : Instr} {w : Word} {origin : Origin} {rest : List Request}

/-! ## A step on a codec request -/

theorem step_encode_eq_exec (h : s.requests = .encode i :: rest) :
    step s = exec i { s with requests := rest, decoding := none } := step_of_request h

theorem step_decode_eq_exec (h : s.requests = .decode w origin :: rest) :
    step s = exec (decodeWord w) { s with requests := rest, decoding := some ⟨w, origin⟩ } := step_of_request h

/-- R100, R112: ENCODE answers its word, and nothing else changes. -/
theorem step_encode (h : s.requests = .encode i :: rest) :
    step s = .next (s.answered rest (.word (encode i))) :=
  (step_encode_eq_exec h).trans (exec_encode i rfl)

/-- R103, R112: DECODE answers its mnemonic, and nothing else changes. -/
theorem step_decode (h : s.requests = .decode w origin :: rest) :
    step s = .next (s.answered rest (.mnemonic (decodeMnemonic w origin))) :=
  (step_decode_eq_exec h).trans (exec_decode (a := ⟨w, origin⟩) (decodeWord w) rfl)

theorem ofNat_mask_16 (n : Nat) : BitVec.ofNat 16 (mask 16 n) = BitVec.ofNat 16 n := by
  simp [mask, ← BitVec.toNat_inj]

/-- The word placed by `withFetchWord` is decoded against origin 0. -/
theorem step_withFetchWord (s : State) (n : Nat) :
    step (s.withFetchWord 16 n) =
      exec (decodeWord (BitVec.ofNat 16 n)) { s with decoding := some ⟨BitVec.ofNat 16 n, 0⟩ } := by
  rw [step_decode_eq_exec (s := s.withFetchWord 16 n) rfl, ofNat_mask_16]
  rfl

/-! ## The mnemonic -/

/-- R107: the suffix is there exactly when the delay is over 0. -/
theorem delaySuffix_eq_ite (delay : Nat) :
    delaySuffix delay = if 0 < delay then " [" ++ dec (delay : Int) ++ "]" else "" := by
  cases delay <;> rfl

theorem decodeMnemonic_delaySuffix (w : Word) (origin : Nat) :
    (decodeMnemonic w origin).delaySuffix = delaySuffix (bitsAt w 8 5) := by
  rw [bitsAt_eq_field]
  rfl

theorem suffixOf_eq_delaySuffix (w : Word) : suffixOf w = delaySuffix (bitsAt w 8 5) := rfl

/-- R104, R106: the origin enters a rendering by the jump target alone. -/
theorem render_origin_irrelevant (h : i.form ≠ .jmp) (o₁ o₂ : Nat) : render i o₁ = render i o₂ := by
  cases i with
  | jmp => exact absurd rfl h
  | _ => rfl

theorem decodeMnemonic_origin_irrelevant (h : formOf w ≠ .jmp) (o₁ o₂ : Nat) :
    decodeMnemonic w o₁ = decodeMnemonic w o₂ := by
  rw [decodeMnemonic, decodeMnemonic, render_origin_irrelevant (by rwa [decodeWord_form]) o₁ o₂]

end Sys2Proof.Machine

section
open Sys2Proof Sys2Proof.Machine

/-- Settles O1: each field of the word holds its masked operand, and the form is the record's own unless the operand
byte is the no-op's. -/
theorem decodeOfEncodeIsTheMaskedRecord : Obligations.DecodeOfEncodeIsTheMaskedRecord := by
  unfold Obligations.DecodeOfEncodeIsTheMaskedRecord
  exact ⟨decodeWord_encode, fun i h => decodeWord_encode_of_wellFormed h⟩

/-- Settles O2, from O1's round trip and the zeros that ENCODE writes. -/
theorem encodeOfDecodeClearsTheIgnoredBits : Obligations.EncodeOfDecodeClearsTheIgnoredBits := by
  unfold Obligations.EncodeOfDecodeClearsTheIgnoredBits
  exact encode_decodeWord

/-- Settles O10: class, delay and suffix are read from the word's bits, before any form's rule. -/
theorem decodeIsTotalAndReadsClassAndDelayAlike : Obligations.DecodeIsTotalAndReadsClassAndDelayAlike := by
  unfold Obligations.DecodeIsTotalAndReadsClassAndDelayAlike
  refine ⟨fun s w origin rest h => step_decode h, fun w origin => ?_, fun w o₁ o₂ h =>
    decodeMnemonic_origin_irrelevant h o₁ o₂⟩
  exact ⟨rfl, ofNat_field w 13 3, ofNat_field w 8 5, decodeWord_form w, rfl,
    (decodeMnemonic_delaySuffix w origin).trans (suffixOf_eq_delaySuffix w).symm⟩

/-- Settles O7: ENCODE of the reduced record, then the fields of the word, form by form. -/
theorem encodeMasksEveryOperand : Obligations.EncodeMasksEveryOperand := by
  unfold Obligations.EncodeMasksEveryOperand
  exact ⟨
    fun c a d => (encode_reduced (.jmp c a d)).symm,
    fun p s i d => (encode_reduced (.wait p s i d)).symm,
    fun s n d => (encode_reduced (.inp s n d)).symm,
    fun t n d => (encode_reduced (.out t n d)).symm,
    fun f b d => (encode_reduced (.push f b d)).symm,
    fun f b d => (encode_reduced (.pull f b d)).symm,
    fun k i d => (encode_reduced (.movToRx k i d)).symm,
    fun k i d => (encode_reduced (.movFromRx k i d)).symm,
    fun t o s d => (encode_reduced (.mov t o s d)).symm,
    fun d => (encode_reduced (.nop d)).symm,
    fun c w i d => (encode_reduced (.irq c w i d)).symm,
    fun t v d => (encode_reduced (.set t v d)).symm,
    bitsAt_encode_delay,
    fun c a d => bitsAt_encode_operands (.jmp c a d),
    fun p s i d => bitsAt_encode_operands (.wait p s i d),
    fun s n d => bitsAt_encode_operands (.inp s n d),
    fun t n d => bitsAt_encode_operands (.out t n d),
    fun f b d => bitsAt_encode_operands (.push f b d),
    fun f b d => bitsAt_encode_operands (.pull f b d),
    fun k i d => bitsAt_encode_operands (.movToRx k i d),
    fun k i d => bitsAt_encode_operands (.movFromRx k i d),
    fun t o s d => bitsAt_encode_operands (.mov t o s d),
    fun c w i d => bitsAt_encode_operands (.irq c w i d),
    fun t v d => bitsAt_encode_operands (.set t v d),
    fun s i rest h => step_encode h⟩

/-- Settles O9, from what a step does with the head of the stream. -/
theorem stepRunsTheDecodedInstruction : Obligations.StepRunsTheDecodedInstruction := by
  unfold Obligations.StepRunsTheDecodedInstruction
  exact ⟨fun s w origin rest h => ⟨decodeWord_wellFormed w, step_decode_eq_exec h⟩,
    fun s i rest h => step_encode_eq_exec h, step_withFetchWord⟩

/-- Settles O11: either codec request is answered, and neither answer is an error. -/
theorem codecHasNoErrorsAndNoSideEffects : Obligations.CodecHasNoErrorsAndNoSideEffects := by
  unfold Obligations.CodecHasNoErrorsAndNoSideEffects
  rintro s q rest h (⟨i, rfl⟩ | ⟨w, origin, rfl⟩)
  · exact ⟨_, step_encode h, rfl⟩
  · exact ⟨_, step_decode h, rfl⟩

/-- Settles O57: the suffix of a word is that of its delay. -/
theorem delaySuffixIsOmittedAtZero : Obligations.DelaySuffixIsOmittedAtZero := by
  unfold Obligations.DelaySuffixIsOmittedAtZero
  refine ⟨delaySuffix_eq_ite, fun w origin => ?_⟩
  rw [decodeMnemonic_delaySuffix, delaySuffix_eq_ite]

end
end

section
/-!
Proofs of the statements from spec/41_classes_jmp_wait_in_out.md: ENCODE and DECODE of `jmp` (R120), `wait` (R121),
`in` (R122) and `out` (R123). The first two parts say of any form what its word and its record are; the third is about
the tables of these forms.
-/

namespace Sys2Proof

variable {w : Word} {f : Form} {i : Instr}

/-! ## The record of a word, from its bits -/

theorem Form.selectors_fit (f : Form) : ∀ p ∈ f.selectors, Fits p.2.1 p.2.2 := by cases f <;> decide

/-- R92 on extracted bits: a word is of the form whose fields select it, and of `mov` only when it is not the
no-op's. -/
theorem formOf_eq_of_bits (h : f.selectors.Forall fun p => w.extractLsb' p.1 p.2.1 = BitVec.ofNat p.2.1 p.2.2)
    (hmov : f = .mov → w.extractLsb' 0 8 ≠ 0x42) : formOf w = f := by
  rw [List.forall_iff_forall_mem] at h
  refine formOf_eq_iff.mpr ⟨fun p hp => ?_, fun hf hbyte => hmov hf (BitVec.eq_of_toNat_eq ?_)⟩
  · rw [field_eq_extract, h p hp, BitVec.toNat_ofNat, Nat.mod_eq_of_lt (f.selectors_fit p hp)]
  · rw [← field_eq_extract, hbyte]
    rfl

/-- R103: DECODE's record is the one of the word's form whose delay and operands are the bits of their fields. -/
theorem decodeWord_eq_of_bits (hform : formOf w = i.form) (hdelay : Machine.bitsAt w 8 5 = i.delay)
    (hops : i.operands.Forall fun p => Machine.bitsAt w p.1 p.2.1 = p.2.2) : decodeWord w = i := by
  rw [decodeWord, hform]
  cases i <;> simp_all [Instr.form, Instr.delay, Instr.operands, field_eq_extract]

end Sys2Proof

namespace Sys2Proof.Machine

variable {s : State} {i : Instr} {w : Word} {origin : Origin} {rest : List Request} {v : Nat}

/-! ## What the codec answers for a form -/

/-- R100, R101: ENCODE answers the word packed of the class, the masked delay and the operand byte. -/
theorem exec_answers_word {n : Nat} (h : s.decoding = none)
    (hn : n = i.form.cls * 2 ^ 13 + i.delay % 32 * 2 ^ 8 + i.operandByte) :
    exec i s = .next (s.answered s.requests (.word (BitVec.ofNat 16 n))) := by
  rw [exec_encode i h, encode_eq_packWord, hn]
  rfl

/-- R103, R105, R107, R108: the mnemonic of a rendering, with class, delay and suffix read from the word's bits. -/
theorem mnemonicOf_eq_recordOf (i : Instr) (r : Rendering) (w : Word) :
    mnemonicOf i r w = recordOf w i r.opcode r.operands r.body := by
  rw [mnemonicOf, recordOf, ofNat_field, ofNat_field, suffixOf_eq_delaySuffix, bitsAt_eq_field]

/-- R103, R112: in a DECODE of a word the meaning of its record, and so the step, answers the record's rendering. -/
theorem exec_and_step_answer_record {r : Rendering} (h : s.requests = .decode w origin :: rest)
    (hi : decodeWord w = i) (hr : render i origin = r) :
    exec i { s with requests := rest, decoding := some ⟨w, origin⟩ } =
        .next (s.answered rest (.mnemonic (recordOf w i r.opcode r.operands r.body))) ∧
      step s = .next (s.answered rest (.mnemonic (recordOf w i r.opcode r.operands r.body))) := by
  subst hi hr
  rw [← mnemonicOf_eq_recordOf]
  exact ⟨exec_decode (a := ⟨w, origin⟩) (decodeWord w) rfl, step_decode h⟩

/-! ## Names of operands -/

/-- `COND` as a list (R81). -/
theorem condName_eq_getD (h : v < 8) :
    condName v = ["", "!x", "x--", "!y", "y--", "x!=y", "pin", "!osre"].getD v "" := by
  interval_cases v <;> rfl

/-- `WAITSRC` as a list (R82). -/
theorem waitSrcName_eq_getD (h : v < 4) : waitSrcName v = ["gpio", "pin", "irq", "jmppin"].getD v "" := by
  interval_cases v <;> rfl

/-- `INSRC` as a list (R83, R109). -/
theorem inSrcName_eq_getD (h : v < 8) :
    inSrcName v = ["pins", "x", "y", "null", "reserved", "reserved", "isr", "osr"].getD v "" := by
  interval_cases v <;> rfl

/-- `OUTDST` as a list (R84). -/
theorem outDstName_eq_getD (h : v < 8) :
    outDstName v = ["pins", "x", "y", "null", "pindirs", "pc", "isr", "exec"].getD v "" := by
  interval_cases v <;> rfl

theorem dec_natCast (n : Nat) : dec (n : Int) = Nat.repr n := rfl

/-- The flag number of an IRQ index is its low 3 bits. -/
theorem bitsAt_index_flag (w : Word) : bitsAt w 0 5 % 2 ^ 3 = bitsAt w 0 3 := by
  simp only [bitsAt_eq_field, field]
  omega

/-- The mode of an IRQ index is its high 2 bits. -/
theorem bitsAt_index_mode (w : Word) : bitsAt w 0 5 / 2 ^ 3 % 2 ^ 2 = bitsAt w 3 2 := by
  simp only [bitsAt_eq_field, field]
  omega

/-- `IRQINDEX` of the index field of a word (R89): the mode at bits 4:3 picks the reading of the flag at bits 2:0. -/
theorem irqIndexName_bitsAt (w : Word) :
    irqIndexName (bitsAt w 0 5) =
      [Nat.repr (bitsAt w 0 3), "prev " ++ Nat.repr (bitsAt w 0 3), Nat.repr (bitsAt w 0 3) ++ " rel",
        "next " ++ Nat.repr (bitsAt w 0 3)].getD (bitsAt w 3 2) "" := by
  have hmode : bitsAt w 3 2 < 4 := BitVec.isLt _
  rw [irqIndexName, bitsAt_index_mode, bitsAt_index_flag, dec_natCast]
  generalize bitsAt w 3 2 = mode at hmode
  interval_cases mode <;> rfl

end Sys2Proof.Machine

section
open Sys2Proof Sys2Proof.Machine

/-- Settles O12, from the table of conditions; class 000 alone selects the form. -/
theorem jmpEncodesAndDecodes : Obligations.JmpEncodesAndDecodes := by
  unfold Obligations.JmpEncodesAndDecodes
  refine ⟨fun cond addr delay s h => exec_answers_word h (Nat.add_assoc ..), ?_⟩
  intro w origin s rest h hclass cond addr i c rel t
  have hform : formOf w = .jmp := formOf_eq_of_bits hclass nofun
  have hrecord : decodeWord w = i := decodeWord_eq_of_bits hform rfl ⟨rfl, rfl⟩
  have hcond : condName cond = c := condName_eq_getD (BitVec.isLt _)
  have hrender : render i origin =
      ⟨"jmp", [c, rel], if c = "" then "jmp " ++ rel else "jmp " ++ c ++ ", " ++ rel⟩ := by
    rw [← hcond]
    rfl
  exact exec_and_step_answer_record h hrecord hrender

/-- Settles O13, from the table of sources and the reading of an IRQ index; class 001 alone selects the form. -/
theorem waitEncodesAndDecodes : Obligations.WaitEncodesAndDecodes := by
  unfold Obligations.WaitEncodesAndDecodes
  constructor
  · intro pol src index delay s h
    refine exec_answers_word h ?_
    simp only [Instr.operandByte, Instr.form, Form.cls, Instr.delay, mask]
    omega
  · intro w origin s rest h hclass pol src index i n ix srcName t
    have hform : formOf w = .wait := formOf_eq_of_bits hclass nofun
    have hrecord : decodeWord w = i := decodeWord_eq_of_bits hform rfl ⟨rfl, rfl, rfl⟩
    have hsrc : waitSrcName src = srcName := waitSrcName_eq_getD (BitVec.isLt _)
    have hindex : waitIndexName src index = ix := by rw [waitIndexName, irqIndexName_bitsAt, dec_natCast]
    have hrender : render i origin =
        ⟨"wait", [Nat.repr pol, srcName, ix], "wait " ++ Nat.repr pol ++ " " ++ srcName ++ " " ++ ix⟩ := by
      rw [← hsrc, ← hindex]
      rfl
    exact exec_and_step_answer_record h hrecord hrender

/-- Settles O14, from the table of sources; class 010 alone selects the form. -/
theorem inEncodesAndDecodes : Obligations.InEncodesAndDecodes := by
  unfold Obligations.InEncodesAndDecodes
  refine ⟨fun src count delay s h => exec_answers_word h (Nat.add_assoc ..), ?_⟩
  intro w origin s rest h hclass src count i srcName n t
  have hform : formOf w = .inp := formOf_eq_of_bits hclass nofun
  have hrecord : decodeWord w = i := decodeWord_eq_of_bits hform rfl ⟨rfl, rfl⟩
  have hsrc : inSrcName src = srcName := inSrcName_eq_getD (BitVec.isLt _)
  have hrender : render i origin = ⟨"in", [srcName, n], "in " ++ srcName ++ ", " ++ n⟩ := by
    rw [← hsrc]
    rfl
  exact exec_and_step_answer_record h hrecord hrender

/-- Settles O15, from the table of destinations; class 011 alone selects the form. -/
theorem outEncodesAndDecodes : Obligations.OutEncodesAndDecodes := by
  unfold Obligations.OutEncodesAndDecodes
  refine ⟨fun dst count delay s h => exec_answers_word h (Nat.add_assoc ..), ?_⟩
  intro w origin s rest h hclass dst count i dstName n t
  have hform : formOf w = .out := formOf_eq_of_bits hclass nofun
  have hrecord : decodeWord w = i := decodeWord_eq_of_bits hform rfl ⟨rfl, rfl⟩
  have hdst : outDstName dst = dstName := outDstName_eq_getD (BitVec.isLt _)
  have hrender : render i origin = ⟨"out", [dstName, n], "out " ++ dstName ++ ", " ++ n⟩ := by
    rw [← hdst]
    rfl
  exact exec_and_step_answer_record h hrecord hrender

end
end

section
/-!
Proofs of the statements from spec/42_classes_fifo_mov_irq_set.md: ENCODE and DECODE of `push` (R150), `pull` (R151),
the indexed `mov` forms (R152, R153), `mov` (R154), `nop` (R155), `irq` (R156) and `set` (R157). The first part is about
the sum that packs their words and the tables and texts of their records.
-/

namespace Sys2Proof.Machine

variable {v : Nat}

/-! ## The sum that is a form's word -/

theorem add_add_add_assoc (x a b c : Nat) : x + a + b + c = x + (a + b + c) := by omega

theorem add_add_add_add_assoc (x a b c d : Nat) : x + a + b + c + d = x + (a + b + c + d) := by omega

/-! ## Names of operands of classes 100 to 111 -/

/-- `MOVDST` as a list (R85). -/
theorem movDstName_eq_getD (h : v < 8) :
    movDstName v = ["pins", "x", "y", "pindirs", "exec", "pc", "isr", "osr"].getD v "" := by
  interval_cases v <;> rfl

/-- `MOVOP` as a list (R86, R109). -/
theorem movOpName_eq_getD (h : v < 4) : movOpName v = ["", "!", "::", "???"].getD v "" := by
  interval_cases v <;> rfl

/-- `MOVSRC` as a list (R87, R109). -/
theorem movSrcName_eq_getD (h : v < 8) :
    movSrcName v = ["pins", "x", "y", "null", "reserved", "status", "isr", "osr"].getD v "" := by
  interval_cases v <;> rfl

/-- `SETDST` as a list (R88, R109). -/
theorem setDstName_eq_getD (h : v < 8) :
    setDstName v = ["pins", "x", "y", "reserved", "pindirs", "reserved", "reserved", "reserved"].getD v "" := by
  interval_cases v <;> rfl

/-- The body text of PUSH and PULL (R150, R151): a space before each of the operand names. -/
theorem spacedBody_fifoOperands (opcode condition : String) (conditionBit block : Nat) :
    spacedBody opcode (fifoOperands condition conditionBit block) =
      opcode ++ (if conditionBit = 1 then " " ++ condition else "") ++
        (if block = 1 then " block" else " noblock") := by
  rw [spacedBody, fifoOperands, List.foldl_append]
  split_ifs <;> simp

end Sys2Proof.Machine

section
open Sys2Proof Sys2Proof.Machine

/-- Settles O16, from the body text of the FIFO forms; class 100 with bits 7 and 4 clear selects the form. -/
theorem pushEncodesAndDecodes : Obligations.PushEncodesAndDecodes := by
  unfold Obligations.PushEncodesAndDecodes
  refine ⟨fun ifFull block delay s h => exec_answers_word h (Nat.add_assoc ..), ?_⟩
  intro w origin s rest h hclass h4 h7 ifFull block i t
  have hform : formOf w = .push := formOf_eq_of_bits ⟨hclass, h4, h7⟩ nofun
  have hrecord : decodeWord w = i := decodeWord_eq_of_bits hform rfl ⟨rfl, rfl⟩
  have hrender : render i origin =
      ⟨"push", fifoOperands "iffull" ifFull block,
        "push" ++ (if ifFull = 1 then " iffull" else "") ++ (if block = 1 then " block" else " noblock")⟩ :=
    congrArg (Rendering.mk _ _) (spacedBody_fifoOperands "push" "iffull" ifFull block)
  exact exec_and_step_answer_record h hrecord hrender

/-- Settles O17, from the body text of the FIFO forms; class 100 with bit 7 set and bit 4 clear selects the form. -/
theorem pullEncodesAndDecodes : Obligations.PullEncodesAndDecodes := by
  unfold Obligations.PullEncodesAndDecodes
  refine ⟨fun ifEmpty block delay s h => exec_answers_word h (add_add_add_assoc ..), ?_⟩
  intro w origin s rest h hclass h4 h7 ifEmpty block i t
  have hform : formOf w = .pull := formOf_eq_of_bits ⟨hclass, h4, h7⟩ nofun
  have hrecord : decodeWord w = i := decodeWord_eq_of_bits hform rfl ⟨rfl, rfl⟩
  have hrender : render i origin =
      ⟨"pull", fifoOperands "ifempty" ifEmpty block,
        "pull" ++ (if ifEmpty = 1 then " ifempty" else "") ++ (if block = 1 then " block" else " noblock")⟩ :=
    congrArg (Rendering.mk _ _) (spacedBody_fifoOperands "pull" "ifempty" ifEmpty block)
  exact exec_and_step_answer_record h hrecord hrender

/-- Settles O18; class 100 with bit 7 clear and bit 4 set selects the form. -/
theorem movToRxEncodesAndDecodes : Obligations.MovToRxEncodesAndDecodes := by
  unfold Obligations.MovToRxEncodesAndDecodes
  refine ⟨fun idxImm index delay s h => exec_answers_word h (add_add_add_assoc ..), ?_⟩
  intro w origin s rest h hclass h4 h7 idxImm index i ix t
  have hform : formOf w = .movToRx := formOf_eq_of_bits ⟨hclass, h4, h7⟩ nofun
  have hrecord : decodeWord w = i := decodeWord_eq_of_bits hform rfl ⟨rfl, rfl⟩
  have hrender : render i origin =
      ⟨"mov", ["rxfifo[" ++ ix ++ "]", "isr"], "mov rxfifo[" ++ ix ++ "], isr"⟩ := rfl
  exact exec_and_step_answer_record h hrecord hrender

/-- Settles O19; class 100 with bits 7 and 4 set selects the form. -/
theorem movFromRxEncodesAndDecodes : Obligations.MovFromRxEncodesAndDecodes := by
  unfold Obligations.MovFromRxEncodesAndDecodes
  refine ⟨fun idxImm index delay s h => exec_answers_word h (add_add_add_add_assoc ..), ?_⟩
  intro w origin s rest h hclass h4 h7 idxImm index i ix t
  have hform : formOf w = .movFromRx := formOf_eq_of_bits ⟨hclass, h4, h7⟩ nofun
  have hrecord : decodeWord w = i := decodeWord_eq_of_bits hform rfl ⟨rfl, rfl⟩
  have hrender : render i origin =
      ⟨"mov", ["osr", "rxfifo[" ++ ix ++ "]"], "mov osr, rxfifo[" ++ ix ++ "]"⟩ := rfl
  exact exec_and_step_answer_record h hrecord hrender

/-- Settles O20, from the tables of destinations, operations and sources; class 101 without the no-op's operand byte
selects the form. -/
theorem movEncodesAndDecodes : Obligations.MovEncodesAndDecodes := by
  unfold Obligations.MovEncodesAndDecodes
  refine ⟨fun dst op src delay s h => exec_answers_word h (add_add_add_assoc ..), ?_⟩
  intro w origin s rest h hclass hbyte dst op src i d p n t
  have hform : formOf w = .mov := formOf_eq_of_bits hclass fun _ => hbyte
  have hrecord : decodeWord w = i := decodeWord_eq_of_bits hform rfl ⟨rfl, rfl, rfl⟩
  have hdst : movDstName dst = d := movDstName_eq_getD (BitVec.isLt _)
  have hop : movOpName op = p := movOpName_eq_getD (BitVec.isLt _)
  have hsrc : movSrcName src = n := movSrcName_eq_getD (BitVec.isLt _)
  have hrender : render i origin = ⟨"mov", [d, p ++ n], "mov " ++ d ++ ", " ++ p ++ n⟩ := by
    rw [← hdst, ← hop, ← hsrc]
    rfl
  exact exec_and_step_answer_record h hrecord hrender

/-- Settles O21; class 101 with the operand byte `0x42`, which is the no-op pattern of `mov` packed, selects the
form. -/
theorem nopEncodesAndDecodes : Obligations.NopEncodesAndDecodes := by
  unfold Obligations.NopEncodesAndDecodes
  refine ⟨fun delay => rfl, fun delay s h => exec_answers_word h rfl, ?_⟩
  intro w origin s rest h hclass hbyte i t
  have hform : formOf w = .nop := formOf_eq_of_bits ⟨hclass, hbyte⟩ nofun
  have hrecord : decodeWord w = i := decodeWord_eq_of_bits hform rfl trivial
  have hrender : render i origin = ⟨"nop", [], "nop"⟩ := rfl
  exact exec_and_step_answer_record h hrecord hrender

/-- Settles O22, from the reading of an IRQ index; class 110 alone selects the form. -/
theorem irqEncodesAndDecodes : Obligations.IrqEncodesAndDecodes := by
  unfold Obligations.IrqEncodesAndDecodes
  refine ⟨fun clearBit waitBit index delay s h => exec_answers_word h (add_add_add_assoc ..), ?_⟩
  intro w origin s rest h hclass clearBit waitBit index i a n ix t
  have hform : formOf w = .irq := formOf_eq_of_bits hclass nofun
  have hrecord : decodeWord w = i := decodeWord_eq_of_bits hform rfl ⟨rfl, rfl, rfl⟩
  have hindex : irqIndexName index = ix := irqIndexName_bitsAt w
  have hrender : render i origin = ⟨"irq", [a, ix], "irq " ++ a ++ " " ++ ix⟩ := by
    rw [← hindex]
    rfl
  exact exec_and_step_answer_record h hrecord hrender

/-- Settles O23, from the table of destinations; class 111 alone selects the form. -/
theorem setEncodesAndDecodes : Obligations.SetEncodesAndDecodes := by
  unfold Obligations.SetEncodesAndDecodes
  refine ⟨fun dst data delay s h => exec_answers_word h (Nat.add_assoc ..), ?_⟩
  intro w origin s rest h hclass dst data i d t
  have hform : formOf w = .set := formOf_eq_of_bits hclass nofun
  have hrecord : decodeWord w = i := decodeWord_eq_of_bits hform rfl ⟨rfl, rfl⟩
  have hdst : setDstName dst = d := setDstName_eq_getD (BitVec.isLt _)
  have hrender : render i origin = ⟨"set", [d, Nat.repr data], "set " ++ d ++ ", " ++ Nat.repr data⟩ := by
    rw [← hdst]
    rfl
  exact exec_and_step_answer_record h hrecord hrender

end
end

section
/-!
Proofs of the statements from spec/43_builder.md about one command of a running session: the checks shared by the
commands (R181, R182), the selections (R183, R184), the markers (R185 to R188), EMIT, LABEL and CONFIGURE (R189 to
R191).
-/

namespace Sys2Proof.Machine

variable {s t : State} {q : Request} {rest : List Request} {r : Response} {b : BlockIdx} {u : UnitIdx}
variable {p : Phase} {o : Offsets} {e : ErrorCode} {n : Nat}

/-! ## Serving a command -/

@[simp] theorem State.accept_cursor (q : Request) (rest : List Request) (b : BlockIdx) :
    (s.accept q rest).cursor b = s.cursor b := rfl
@[simp] theorem State.accept_isFinalized (q : Request) (rest : List Request) (b : BlockIdx) :
    (s.accept q rest).isFinalized b = s.isFinalized b := rfl
@[simp] theorem State.accept_desc (q : Request) (rest : List Request) (b : BlockIdx) (u : UnitIdx) :
    (s.accept q rest).desc b u = s.desc b u := rfl

/-- R181: every command is served behind the test of the status. -/
theorem step_command (h : s.requests = q :: rest) (hq : q.isCommand = true) :
    step s = calculator (commandOf q) (s.accept q rest) := by
  rw [step_of_request h]
  rcases serve_cases q (s.accept q rest) with ⟨i, rfl, -⟩ | ⟨w, o, rfl, -⟩ | ⟨rfl, -⟩ | ⟨rfl, -⟩ | hs
  · cases hq
  · cases hq
  · cases hq
  · cases hq
  · exact hs

theorem calculator_of_aborted (hs : s.status = .aborted e) (command : State → Reply) :
    calculator command s = .next s.refuseAborted := by
  simp [calculator, hs]

/-- A running session with the command `q` next on its stream and `rest` after it. -/
structure State.Serves (s : State) (q : Request) (rest : List Request) : Prop where
  requests : s.requests = q :: rest
  running : s.status = .running
  command : q.isCommand = true

theorem State.Serves.step_eq (hs : s.Serves q rest) :
    step s = settle (s.accept q rest) (commandOf q (s.accept q rest)) := by
  rw [step_command hs.requests hs.command]
  simp [calculator, hs.running]

/-- R222, R223: a command that raises an error changes the status and answers the error. -/
theorem State.Serves.step_of_raise (hs : s.Serves q rest) (hc : commandOf q (s.accept q rest) = .raise e) :
    step s = .next (s.raised rest e) := by
  rw [hs.step_eq, hc]
  rfl

theorem State.Serves.step_of_done (hs : s.Serves q rest) (hc : commandOf q (s.accept q rest) = .done t r) :
    step s = .next (t.respond r) := by
  rw [hs.step_eq, hc]
  rfl

/-! ## The commands that need a block -/

theorem withBlock_none {k : BlockIdx → Reply} (hb : s.activeBlock = none) :
    withBlock s k = .raise .noBlockSelected := by
  simp [withBlock, hb]

theorem withBlock_some {k : BlockIdx → Reply} (hb : s.activeBlock = some b) : withBlock s k = k b := by
  simp [withBlock, hb]

theorem selectBlock_val (b : BlockIdx) (s : State) :
    selectBlock b.val s = .done { s with activeBlock := some b, activeUnit := none } .ok :=
  dif_pos b.isLt

theorem selectBlock_of_ge (hn : 3 ≤ n) (s : State) : selectBlock n s = .raise .blockIndexOutOfRange :=
  dif_neg (Nat.not_lt.mpr hn)

theorem selectUnit_of_ge (hn : 4 ≤ n) (s : State) : selectUnit n s = .raise .unitIndexOutOfRange :=
  dif_neg (Nat.not_lt.mpr hn)

theorem selectUnit_noBlock (u : UnitIdx) (hb : s.activeBlock = none) :
    selectUnit u.val s = .raise .noBlockSelected :=
  (dif_pos u.isLt).trans (withBlock_none hb)

/-- R184 in a selected block: its two errors, then the descriptor with all offsets at the cursor. -/
theorem selectUnit_block (u : UnitIdx) (hb : s.activeBlock = some b) :
    selectUnit u.val s =
      if s.isFinalized b = true then .raise .blockFinalized
      else if Config.capacity ≤ s.cursor b then .raise .offsetOutOfRange
      else .done (({ s with activeUnit := some u }).setDesc b u
        (.selected .building ⟨s.cursor b, s.cursor b, s.cursor b, s.cursor b, s.cursor b⟩)) .ok :=
  (dif_pos u.isLt).trans (withBlock_some hb)

/-! ## The commands that need a unit -/

/-- R182: either one of the errors, or the active block and unit with the unit's program. -/
theorem requireUnit_cases (s : State) :
    (∃ e, requireUnit s = .error e) ∨ ∃ b u p o, requireUnit s = .ok (b, u) ∧ s.desc b u = .selected p o := by
  cases hr : requireUnit s with
  | error e => exact .inl ⟨e, rfl⟩
  | ok bu =>
    obtain ⟨b, u⟩ := bu
    obtain ⟨-, -, -, hd⟩ := requireUnit_ok_iff.mp hr
    obtain ⟨p, o, hd⟩ := Descriptor.isSelected_iff.mp hd
    exact .inr ⟨b, u, p, o, rfl, hd⟩

theorem requireUnit_of_selected (hb : s.activeBlock = some b) (hf : s.isFinalized b = false)
    (hu : s.activeUnit = some u) (hd : s.desc b u = .selected p o) : requireUnit s = .ok (b, u) :=
  requireUnit_ok_iff.mpr ⟨hb, hf, hu, Descriptor.isSelected_iff.mpr ⟨p, o, hd⟩⟩

theorem requireUnit_noBlock (hb : s.activeBlock = none) : requireUnit s = .error .noBlockSelected := by
  simp [requireUnit, hb]

theorem requireUnit_finalized (hb : s.activeBlock = some b) (hf : s.isFinalized b = true) :
    requireUnit s = .error .blockFinalized := by
  simp [requireUnit, hb, hf]

theorem requireUnit_noUnit (hb : s.activeBlock = some b) (hf : s.isFinalized b = false) (hu : s.activeUnit = none) :
    requireUnit s = .error .noUnitSelected := by
  simp [requireUnit, hb, hf, hu]

theorem requireUnit_unselected (hb : s.activeBlock = some b) (hf : s.isFinalized b = false)
    (hu : s.activeUnit = some u) (hd : s.desc b u = .unselected) : requireUnit s = .error .noUnitSelected := by
  simp [requireUnit, hb, hf, hu, hd, Descriptor.isSelected]

theorem withUnit_of_error {k : BlockIdx → UnitIdx → Reply} (h : requireUnit s = .error e) :
    withUnit s k = .raise e := by
  simp [withUnit, h]

theorem withUnit_of_requireUnit {k : BlockIdx → UnitIdx → Reply} (h : requireUnit s = .ok (b, u)) :
    withUnit s k = k b u := by
  simp [withUnit, h]

/-- `State.forUnit` raises what `RequireUnit()` raises. -/
theorem State.forUnit_of_error (k : BlockIdx → UnitIdx → Phase → Offsets → State) (h : requireUnit s = .error e) :
    s.forUnit rest k = s.raised rest e := by
  unfold State.forUnit
  cases hb : s.activeBlock with
  | none =>
    rw [requireUnit_noBlock hb] at h
    cases h
    rfl
  | some b =>
    cases hf : s.isFinalized b with
    | true =>
      rw [requireUnit_finalized hb hf] at h
      cases h
      simp [hf]
    | false =>
      cases hu : s.activeUnit with
      | none =>
        rw [requireUnit_noUnit hb hf hu] at h
        cases h
        simp [hf]
      | some u =>
        cases hd : s.desc b u with
        | unselected =>
          rw [requireUnit_unselected hb hf hu hd] at h
          cases h
          simp [hf, hd]
        | selected p o =>
          rw [requireUnit_of_selected hb hf hu hd] at h
          cases h

/-- `State.forUnit` of a state whose unit may be changed. -/
theorem State.forUnit_of_ok (k : BlockIdx → UnitIdx → Phase → Offsets → State) (h : requireUnit s = .ok (b, u))
    (hd : s.desc b u = .selected p o) : s.forUnit rest k = k b u p o := by
  obtain ⟨hb, hf, hu, -⟩ := requireUnit_ok_iff.mp h
  simp [State.forUnit, hb, hf, hu, hd]

/-- R182: a command that begins with `RequireUnit()` raises its errors, or goes on with the unit found. -/
theorem State.Serves.step_of_withUnit (hs : s.Serves q rest) {k : BlockIdx → UnitIdx → Reply}
    {g : BlockIdx → UnitIdx → Phase → Offsets → State}
    (hc : commandOf q (s.accept q rest) = withUnit (s.accept q rest) k)
    (hk : ∀ b u p o, s.desc b u = .selected p o → settle (s.accept q rest) (k b u) = .next (g b u p o)) :
    step s = .next (s.forUnit rest g) := by
  rcases requireUnit_cases s with ⟨e, he⟩ | ⟨b, u, p, o, hr, hd⟩
  · rw [State.forUnit_of_error g he]
    exact hs.step_of_raise (hc.trans (withUnit_of_error he))
  · rw [State.forUnit_of_ok g hr hd, hs.step_eq, hc, withUnit_of_requireUnit (s := s.accept q rest) hr]
    exact hk b u p o hd

/-- R182: the markers, EMIT and CONFIGURE begin with `RequireUnit()`. -/
theorem Request.withUnit_of_needsUnit (hq : q.needsUnit = true) :
    q.isCommand = true ∧ ∃ k : State → BlockIdx → UnitIdx → Reply, ∀ s, commandOf q s = withUnit s (k s) := by
  cases q with
  | markStart => exact ⟨rfl, _, fun _ => rfl⟩
  | markWrapBottom => exact ⟨rfl, _, fun _ => rfl⟩
  | markWrapTop => exact ⟨rfl, _, fun _ => rfl⟩
  | markEnd => exact ⟨rfl, _, fun _ => rfl⟩
  | emit w => exact ⟨rfl, _, fun _ => rfl⟩
  | configure => exact ⟨rfl, _, fun _ => rfl⟩
  | _ => cases hq

theorem step_of_requireUnit_error (h : s.requests = q :: rest) (hq : q.needsUnit = true) (hs : s.status = .running)
    (he : requireUnit s = .error e) : step s = .next (s.raised rest e) := by
  obtain ⟨hcommand, k, hk⟩ := Request.withUnit_of_needsUnit hq
  have hserves : s.Serves q rest := ⟨h, hs, hcommand⟩
  exact hserves.step_of_raise ((hk _).trans (withUnit_of_error he))

/-- R185 to R188: a marker records the cursor in the offsets of the active unit, unless the block is full. -/
theorem Marker.step_eq {f : Nat → Offsets → Offsets} (hm : Marker q f) (hs : s.Serves q rest) :
    step s = .next (s.forUnit rest fun b u p o =>
      if 32 ≤ s.cursor b then s.raised rest .offsetOutOfRange
      else s.answeredDesc rest .ok b u (.selected p (f (s.cursor b) o))) := by
  refine hs.step_of_withUnit (congrFun hm.commandOf_eq _) fun b u p o hd => ?_
  by_cases hc : 32 ≤ s.cursor b
  · rw [if_pos hc, State.accept_cursor, if_pos hc]
    rfl
  · rw [if_neg hc, State.accept_cursor, if_neg hc, State.accept_desc, hd]
    rfl

/-- R191: CONFIGURE changes the state of the active unit's descriptor and keeps its offsets. -/
theorem State.Serves.step_configure (hs : s.Serves .configure rest) :
    step s = .next (s.forUnit rest fun b u _ o => s.answeredDesc rest .ok b u (.selected .configured o)) := by
  refine hs.step_of_withUnit rfl fun b u p o hd => ?_
  simp only [State.accept_desc, hd]
  rfl

/-! ## EMIT -/

theorem interleaves_iff : interleaves s b = true ↔ s.otherOwner b := by
  cases ho : s.bufOwner <;> simp [interleaves, State.otherOwner, ho]

/-- The state `s` with an EMIT of `w` into block `b` answered (R189): the word stands at the cursor, the cursor is one
further, the block owns the buffer. -/
def State.emitted (s : State) (rest : List Request) (b : BlockIdx) (w : Word) : State :=
  { s.answered rest (.value (s.cursor b)) with
    buf := s.buf.write (s.cursor b) w
    bufOwner := some b
    blocks := s.blocks.set b { s.block b with cursor := s.cursor b + 1 } }

/-- R189, its errors in their order. -/
theorem State.Serves.step_emit {w : Word} (hs : s.Serves (.emit w) rest) :
    step s = .next (s.forUnit rest fun b _ _ _ =>
      if 32 ≤ s.cursor b then s.raised rest .capacityExceeded
      else if interleaves s b = true then s.raised rest .bufferInterleave
      else s.emitted rest b w) := by
  refine hs.step_of_withUnit rfl fun b u p o hd => ?_
  have hi : interleaves (s.accept (.emit w) rest) b = interleaves s b := rfl
  by_cases hc : 32 ≤ s.cursor b
  · rw [if_pos hc, State.accept_cursor, if_pos hc]
    rfl
  · rw [if_neg hc, State.accept_cursor, if_neg hc, hi]
    cases interleaves s b with
    | true => rfl
    | false => rfl

end Sys2Proof.Machine

section
open Sys2Proof Sys2Proof.Machine

/-- Settles O32: R184's checks one after the other. -/
theorem selectUnitCapturesTheCursor : Obligations.SelectUnitCapturesTheCursor := by
  unfold Obligations.SelectUnitCapturesTheCursor
  intro s n rest h hrun
  have hs : s.Serves (.selectUnit n) rest := ⟨h, hrun, rfl⟩
  refine ⟨fun hn => hs.step_of_raise (selectUnit_of_ge hn _), ?_⟩
  rintro u rfl
  refine ⟨fun hb => hs.step_of_raise (selectUnit_noBlock u hb), fun b hb => ?_⟩
  dsimp only
  have hc := selectUnit_block (s := s.accept (.selectUnit u.val) rest) u hb
  rw [State.accept_isFinalized, State.accept_cursor] at hc
  by_cases hf : s.isFinalized b = true
  · rw [if_pos hf] at hc ⊢
    exact hs.step_of_raise hc
  · rw [if_neg hf] at hc ⊢
    by_cases hcap : 32 ≤ s.cursor b
    · rw [if_pos hcap] at hc ⊢
      exact hs.step_of_raise hc
    · rw [if_neg hcap] at hc ⊢
      exact hs.step_of_done hc

/-- Settles O33: each error is `RequireUnit()`'s. -/
theorem requireUnitRaisesItsErrorsInOrder : Obligations.RequireUnitRaisesItsErrorsInOrder := by
  unfold Obligations.RequireUnitRaisesItsErrorsInOrder
  intro s q rest h hq hs
  have hstep {e : ErrorCode} := step_of_requireUnit_error (e := e) h hq hs
  exact ⟨fun hb => hstep (requireUnit_noBlock hb), fun b hb =>
    ⟨fun hf => hstep (requireUnit_finalized hb hf), fun hf =>
      ⟨fun hu => hstep (requireUnit_noUnit hb hf hu), fun u hu hd => hstep (requireUnit_unselected hb hf hu hd)⟩⟩⟩

/-- Settles O34, from what every marker does. -/
theorem wrapMarkersRecordTheCursor : Obligations.WrapMarkersRecordTheCursor := by
  unfold Obligations.WrapMarkersRecordTheCursor
  intro s rest hs
  exact ⟨fun h => Marker.wrapBottom.step_eq ⟨h, hs, rfl⟩, fun h => Marker.wrapTop.step_eq ⟨h, hs, rfl⟩⟩

/-- Settles O35, from what every marker does. -/
theorem startAndEndMarkersRecordTheCursor : Obligations.StartAndEndMarkersRecordTheCursor := by
  unfold Obligations.StartAndEndMarkersRecordTheCursor
  intro s rest hs
  exact ⟨fun h => Marker.start.step_eq ⟨h, hs, rfl⟩, fun h => Marker.endAt.step_eq ⟨h, hs, rfl⟩⟩

/-- Settles O36: EMIT's branches, and what reading after the one write gives. -/
theorem emitStoresOneWordAtTheCursor : Obligations.EmitStoresOneWordAtTheCursor := by
  unfold Obligations.EmitStoresOneWordAtTheCursor
  intro s w rest h hrun
  have hs : s.Serves (.emit w) rest := ⟨h, hrun, rfl⟩
  refine ⟨_, hs.step_emit, fun b u p o hb hf hu hd => ?_, fun hnone => ?_⟩
  · rw [State.forUnit_of_ok _ (requireUnit_of_selected hb hf hu hd) hd, ← interleaves_iff]
    refine ⟨fun hc => if_pos hc, fun hc hi => ?_, fun hc hi => ?_⟩
    · rw [if_neg (Nat.not_le.mpr hc), if_pos hi]
    · rw [if_neg (Nat.not_le.mpr hc), if_neg hi]
      exact ⟨rfl, fun i => Memory.lookup_write s.buf (s.cursor b) i w⟩
  · rcases requireUnit_cases s with ⟨e, he⟩ | ⟨b, u, p, o, hr, hd⟩
    · rw [State.forUnit_of_error _ he, State.forUnit_of_error _ he]
    · obtain ⟨hb, hf, hu, -⟩ := requireUnit_ok_iff.mp hr
      exact absurd hd (hnone b u p o hb hf hu)

/-- Settles O26: the test of the status comes first. -/
theorem abortedSessionRefusesEveryCommand : Obligations.AbortedSessionRefusesEveryCommand := by
  unfold Obligations.AbortedSessionRefusesEveryCommand
  intro s q rest code h hq hs
  rw [step_command h hq]
  exact calculator_of_aborted (s := s.accept q rest) hs _

/-- Settles O31: a block index is in range or not. -/
theorem selectBlockSetsTheBlockAndClearsTheUnit : Obligations.SelectBlockSetsTheBlockAndClearsTheUnit := by
  unfold Obligations.SelectBlockSetsTheBlockAndClearsTheUnit
  intro s n rest h hrun
  have hs : s.Serves (.selectBlock n) rest := ⟨h, hrun, rfl⟩
  refine ⟨?_, fun hn => hs.step_of_raise (selectBlock_of_ge hn _)⟩
  rintro b rfl
  exact hs.step_of_done (selectBlock_val b _)

/-- Settles O37: LABEL needs a block and nothing else. -/
theorem labelAnswersTheCursorPlusTheDelta : Obligations.LabelAnswersTheCursorPlusTheDelta := by
  unfold Obligations.LabelAnswersTheCursorPlusTheDelta
  intro s n rest h hrun
  have hs : s.Serves (.label n) rest := ⟨h, hrun, rfl⟩
  exact ⟨fun hb => hs.step_of_raise (withBlock_none hb), fun b hb => hs.step_of_done (withBlock_some hb)⟩

/-- Settles O38, from what CONFIGURE does with the unit it finds. -/
theorem configureMovesTheUnitToConfigured : Obligations.ConfigureMovesTheUnitToConfigured := by
  unfold Obligations.ConfigureMovesTheUnitToConfigured
  intro s rest h hrun
  exact State.Serves.step_configure ⟨h, hrun, rfl⟩

end
end

section
/-!
Proofs of the statements from spec/43_builder.md about the commands that read a finished layout: FINALIZE (R192),
ENABLE (R193) and LIST (R195), and where the wrap bounds land (R194).
-/

namespace Sys2Proof.Machine

variable {s : State} {b : BlockIdx} {u : UnitIdx} {k : Block} {us : List UnitIdx} {ws : List Word} {m n : Nat}

/-! ## FINALIZE -/

/-- R192, D14: a descriptor passes FINALIZE's checks unless it is open and its offsets are out of order or at an index
that no EMIT filled. -/
theorem finalizable_iff {d : Descriptor} :
    finalizable n d = true ↔ ∀ p o, d = .selected p o → p ≠ .finalized →
      (o.firstInstr ≤ o.start ∧ o.wrapBottom ≤ o.wrapTop ∧
        o.start < n ∧ o.wrapBottom < n ∧ o.wrapTop < n ∧ o.endAt < n) := by
  cases d with
  | unselected => simp [finalizable, Descriptor.openOffsets]
  | selected p o =>
    cases p with
    | building => simp [finalizable, Descriptor.openOffsets, and_assoc]
    | configured => simp [finalizable, Descriptor.openOffsets, and_assoc]
    | finalized => simp [finalizable, Descriptor.openOffsets]

theorem finalize_finalized (hb : s.activeBlock = some b) (hf : s.isFinalized b = true) :
    finalize s = .raise .blockFinalized :=
  (withBlock_some hb).trans (if_pos hf)

theorem finalize_unchecked (hb : s.activeBlock = some b) (hf : s.isFinalized b = false)
    (hu : ¬ finalizable (s.cursor b) (s.desc b u) = true) : finalize s = .raise .descriptorInvariant := by
  have hall : ¬ allUnits.all (fun u => finalizable (s.cursor b) (s.desc b u)) = true :=
    fun h => hu (List.all_eq_true.mp h u (mem_allUnits u))
  exact (withBlock_some hb).trans ((if_neg (Bool.eq_false_iff.mp hf)).trans (if_neg hall))

theorem finalize_of_words (hb : s.activeBlock = some b) (hf : s.isFinalized b = false)
    (hchecked : ∀ u, finalizable (s.cursor b) (s.desc b u) = true) (hws : bufferWords s.buf (s.cursor b) = .ok ws) :
    finalize s = .done (s.loadBlock b ws) (.value (s.cursor b)) := by
  simp [finalize, withBlock_some hb, hf, hchecked, hws]

theorem memWrites_eq_mapIdx (b : BlockIdx) (ws : List Word) :
    memWrites b 0 ws = ws.mapIdx fun i w => .memWrite b i w := by
  rw [memWrites_eq, List.mapIdx_eq_zipIdx_map]

/-- R28, R192: FINALIZE leaves every selected descriptor `FINALIZED` with its offsets. -/
theorem Descriptor.closed_selected (p : Phase) (o : Offsets) :
    (Descriptor.selected p o).closed = .selected .finalized o := by
  cases p <;> rfl

/-- R192, R194: the wrap bounds go out of the descriptors that are selected and not yet `FINALIZED`. -/
theorem wrapOutput_selected {p : Phase} {o : Offsets} (hd : k.descOf u = .selected p o) :
    wrapOutput b k u = if p = .finalized then none else some (.wrapBounds b u o.wrapBottom o.wrapTop) := by
  rw [wrapOutput, hd]
  cases p <;> rfl

theorem wrapOutput_unselected (hd : k.descOf u = .unselected) : wrapOutput b k u = none := by
  rw [wrapOutput, hd]
  rfl

/-! ## ENABLE -/

theorem testBit_of_mem_maskUnits (hu : u ∈ maskUnits m) : m.testBit u = true := by
  obtain ⟨-, hbit⟩ := List.mem_filter.mp hu
  exact hbit

theorem maskUnits_map {α : Type} (f : UnitIdx → α) (m : Nat) :
    (maskUnits m).map f = allUnits.filterMap fun u : UnitIdx => if m.testBit u = true then some (f u) else none := by
  rw [maskUnits]
  induction allUnits with
  | nil => rfl
  | cons u us ih => by_cases hu : m.testBit u = true <;> simp [hu, ih]

/-- A descriptor without a finalized program has no offsets that ENABLE or LIST may read. -/
theorem Descriptor.finalOffsets_eq_none {d : Descriptor} (h : ∀ o, d ≠ .selected .finalized o) :
    d.finalOffsets = none := by
  rw [← Option.not_isSome_iff_eq_none, Descriptor.finalOffsets_iff]
  exact not_exists.mpr h

theorem startsOf_eq_none (hu : u ∈ us) (hd : ∀ o, k.descOf u ≠ .selected .finalized o) : startsOf k us = none := by
  induction us with
  | nil => cases hu
  | cons v us ih =>
    rw [startsOf]
    rcases List.mem_cons.mp hu with rfl | hu
    · rw [Descriptor.finalOffsets_eq_none hd]
    · rw [ih hu]
      cases (k.descOf v).finalOffsets <;> rfl

theorem startsOf_eq_some {o : UnitIdx → Offsets} (h : ∀ u ∈ us, k.descOf u = .selected .finalized (o u)) :
    startsOf k us = some (us.map fun u => (u, (o u).start)) := by
  induction us with
  | nil => rfl
  | cons u us ih =>
    obtain ⟨hu, hus⟩ := List.forall_mem_cons.mp h
    rw [startsOf, hu, ih hus]
    rfl

theorem enable_maskInvalid (hm : m = 0 ∨ 16 ≤ m) (s : State) : enable m s = .raise .enableMaskInvalid :=
  if_pos hm

theorem enable_noBlock (hm : ¬ (m = 0 ∨ 16 ≤ m)) (hb : s.activeBlock = none) :
    enable m s = .raise .noBlockSelected :=
  (if_neg hm).trans (withBlock_none hb)

theorem enable_notFinalized (hm : ¬ (m = 0 ∨ 16 ≤ m)) (hb : s.activeBlock = some b) (hf : s.isFinalized b = false) :
    enable m s = .raise .notFinalized :=
  (if_neg hm).trans ((withBlock_some hb).trans (if_neg (Bool.eq_false_iff.mp hf)))

theorem enable_unitNotBuilt (hm : ¬ (m = 0 ∨ 16 ≤ m)) (hb : s.activeBlock = some b) (hf : s.isFinalized b = true)
    (hs : startsOf (s.block b) (maskUnits m) = none) : enable m s = .raise .unitNotBuilt := by
  refine (if_neg hm).trans ((withBlock_some hb).trans ((if_pos hf).trans ?_))
  rw [hs]

theorem enable_of_starts {starts : List (UnitIdx × Nat)} (hm : ¬ (m = 0 ∨ 16 ≤ m)) (hb : s.activeBlock = some b)
    (hf : s.isFinalized b = true) (hs : startsOf (s.block b) (maskUnits m) = some starts) :
    enable m s = .done (({ s with
        outputs := s.outputs ++ [Output.enable b (BitVec.ofNat 4 m) starts] }).setBlock b
      { s.block b with enabled := (s.block b).enabled ||| BitVec.ofNat 4 m }) .ok := by
  refine (if_neg hm).trans ((withBlock_some hb).trans ((if_pos hf).trans ?_))
  rw [hs]

/-! ## LIST -/

theorem list_noBlock (hb : s.activeBlock = none) (n : Nat) : list n s = .done s (.lines []) := by
  simp [list, hb]

theorem list_of_ge (hn : 4 ≤ n) (s : State) : list n s = .done s (.lines []) := by
  cases hb : s.activeBlock with
  | none => exact list_noBlock hb n
  | some b => simp [list, hb, Nat.not_lt.mpr hn]

theorem list_unbuilt (hb : s.activeBlock = some b)
    (h : s.isFinalized b = false ∨ ∀ o, s.desc b u ≠ .selected .finalized o) :
    list u.val s = .done s (.lines []) := by
  rcases h with hf | hd
  · simp [list, hb, hf]
  · simp [list, hb, Descriptor.finalOffsets_eq_none hd]

theorem list_built {o : Offsets} {ls : List String} (hb : s.activeBlock = some b) (hf : s.isFinalized b = true)
    (hd : s.desc b u = .selected .finalized o) (hls : listFrom b (s.block b).imem o o.indices = .ok ls) :
    list u.val s = .done s (.lines ls) := by
  simp [list, hb, hf, hd, Descriptor.finalOffsets, hls]

theorem Offsets.mem_indices {o : Offsets} {i : Nat} : i ∈ o.indices ↔ o.firstInstr ≤ i ∧ i ≤ o.endAt := by
  rw [Offsets.indices, List.mem_range'_1]
  omega

/-! ## The wrap bounds -/

/-- A 5-bit bound ORed in from bit `lo` on: its bits stand at `lo` to `lo + 4`, and no others. -/
theorem getLsbD_mask_shifted (v lo i : Nat) :
    (BitVec.ofNat 32 (mask 5 v * 2 ^ lo)).getLsbD i =
      (decide (i < 32) && (decide (lo ≤ i) && (decide (i - lo < 5) && v.testBit (i - lo)))) := by
  rw [BitVec.getLsbD_ofNat, Nat.testBit_mul_two_pow, mask, Nat.testBit_mod_two_pow]

/-- R194: the bits of the execution-control word after the bounds are ORed in where the RP2350 has them. -/
theorem getLsbD_wrapBoundsInto (execctrl : BitVec 32) (wrapBottom wrapTop i : Nat) :
    (wrapBoundsInto Config.rp2350WrapLayout execctrl wrapBottom wrapTop).getLsbD i =
      (execctrl.getLsbD i
        || (decide (i < 32) && (decide (12 ≤ i) && (decide (i - 12 < 5) && wrapTop.testBit (i - 12))))
        || (decide (i < 32) && (decide (7 ≤ i) && (decide (i - 7 < 5) && wrapBottom.testBit (i - 7))))) := by
  rw [wrapBoundsInto, BitVec.getLsbD_or, BitVec.getLsbD_or, getLsbD_mask_shifted, getLsbD_mask_shifted]
  rfl

/-- Outside bits 16:7 the bounds leave the word as it was. -/
theorem getLsbD_wrapBoundsInto_outside (execctrl : BitVec 32) (wrapBottom wrapTop : Nat) {i : Nat}
    (hi : i < 7 ∨ 17 ≤ i) :
    (wrapBoundsInto Config.rp2350WrapLayout execctrl wrapBottom wrapTop).getLsbD i = execctrl.getLsbD i := by
  rw [getLsbD_wrapBoundsInto]
  rcases hi with hlow | hhigh
  · have htop : ¬ 12 ≤ i := by omega
    have hbottom : ¬ 7 ≤ i := by omega
    simp [htop, hbottom]
  · have htop : ¬ i - 12 < 5 := by omega
    have hbottom : ¬ i - 7 < 5 := by omega
    simp [htop, hbottom]

theorem toNat_extractLsb'_eq_of_testBit {x : BitVec 32} {lo n v : Nat} (hv : v < 2 ^ n)
    (h : ∀ i, i < n → x.getLsbD (lo + i) = v.testBit i) : (x.extractLsb' lo n).toNat = v := by
  have heq : x.extractLsb' lo n = BitVec.ofNat n v :=
    BitVec.eq_of_getLsbD_eq fun i hi => by
      rw [BitVec.getLsbD_extractLsb', BitVec.getLsbD_ofNat, h i hi]
  rw [heq, BitVec.toNat_ofNat, Nat.mod_eq_of_lt hv]

theorem extractLsb'_congr {x y : BitVec 32} {lo n : Nat}
    (h : ∀ i, i < n → x.getLsbD (lo + i) = y.getLsbD (lo + i)) : x.extractLsb' lo n = y.extractLsb' lo n :=
  BitVec.eq_of_getLsbD_eq fun i hi => by simp [hi, h i hi]

end Sys2Proof.Machine

section
open Sys2Proof Sys2Proof.Machine

/-- Settles O39: the checks, then reading the words; the loaded block field by field. -/
theorem finalizeLoadsTheBlock : Obligations.FinalizeLoadsTheBlock := by
  unfold Obligations.FinalizeLoadsTheBlock
  intro s rest h hrun
  have hs : s.Serves .finalize rest := ⟨h, hrun, rfl⟩
  refine ⟨fun hb => hs.step_of_raise (withBlock_none hb), fun b hb => ?_⟩
  intro n bad
  refine ⟨fun hf => hs.step_of_raise (finalize_finalized hb hf), fun hf => ⟨?_, ?_⟩⟩
  · rintro ⟨u, p, o, hd, hp, hbad⟩
    exact hs.step_of_raise (finalize_unchecked (u := u) hb hf fun hok => hbad (finalizable_iff.mp hok p o hd hp))
  · intro ws hgood hlen hn hread
    have hchecked (u : UnitIdx) : finalizable n (s.desc b u) = true :=
      finalizable_iff.mpr fun p o hd hp => by_contra fun hbad => hgood u ⟨p, o, hd, hp, hbad⟩
    have hws : bufferWords s.buf n = .ok ws := bufferWords_of_lookup hlen hn hread
    have hblock := (s.accept .finalize rest).loadBlock_block b b ws
    rw [if_pos rfl, State.accept_block] at hblock
    refine ⟨_, hs.step_of_done (finalize_of_words (s := s.accept .finalize rest) hb hf hchecked hws), rfl, ?_, rfl,
      hrun, rfl, rfl, rfl, rfl, rfl, fun b' hne => ?_, ?_, ?_, ?_, fun i => ?_, fun u => ?_⟩
    · rw [State.respond_outputs, State.loadBlock_outputs, memWrites_eq_mapIdx]
      refine congrArg _ (List.filterMap_congr fun u _ => ?_)
      cases hd : s.desc b u with
      | unselected => exact wrapOutput_unselected hd
      | selected p o => exact wrapOutput_selected hd
    · rw [State.respond_block, State.loadBlock_block, if_neg hne, State.accept_block]
    · exact (congrArg Block.finalized hblock :)
    · exact (congrArg Block.cursor hblock :)
    · exact (congrArg Block.enabled hblock :)
    · rw [State.respond_block, State.loadBlock_image, hlen, State.accept_block]
    · rw [State.desc_eq, State.respond_block, hblock, Block.descOf_loaded, ← State.desc_eq]
      cases s.desc b u with
      | unselected => rfl
      | selected p o => exact Descriptor.closed_selected p o

/-- Settles O40: ENABLE's checks one after the other, and the starts of the mask's units. -/
theorem enableStartsFinalizedUnits : Obligations.EnableStartsFinalizedUnits := by
  unfold Obligations.EnableStartsFinalizedUnits
  intro s m rest h hrun
  have hs : s.Serves (.enable m) rest := ⟨h, hrun, rfl⟩
  refine ⟨fun hm => hs.step_of_raise (enable_maskInvalid hm _), fun h0 h16 => ?_⟩
  have hm : ¬ (m = 0 ∨ 16 ≤ m) := by omega
  refine ⟨fun hb => hs.step_of_raise (enable_noBlock hm hb), fun b hb =>
    ⟨fun hf => hs.step_of_raise (enable_notFinalized hm hb hf), fun hf => ⟨?_, fun o ho => ?_⟩⟩⟩
  · rintro ⟨u, hu, hd⟩
    exact hs.step_of_raise (enable_unitNotBuilt hm hb hf (startsOf_eq_none (mem_maskUnits hu) hd))
  · have hstarts := startsOf_eq_some (k := s.block b) (us := maskUnits m) fun u hu => ho u (testBit_of_mem_maskUnits hu)
    rw [maskUnits_map] at hstarts
    exact hs.step_of_done (enable_of_starts hm hb hf hstarts)

/-- Settles O41: the empty answers, and the lines of the indices of a built unit. -/
theorem listAnswersTheDisassembly : Obligations.ListAnswersTheDisassembly := by
  unfold Obligations.ListAnswersTheDisassembly
  intro s n rest h hrun
  have hs : s.Serves (.list n) rest := ⟨h, hrun, rfl⟩
  refine ⟨?_, ?_⟩
  · rintro (hb | hn)
    · exact hs.step_of_done (list_noBlock (s := s.accept (.list n) rest) hb n)
    · exact hs.step_of_done (list_of_ge hn _)
  · rintro b u hb rfl
    refine ⟨fun hunbuilt => hs.step_of_done (list_unbuilt hb hunbuilt), fun o g hf hd hread => ?_⟩
    have hlines := listFrom_of_lookup (b := b) (o := o) (is := o.indices) fun i hi =>
      (Offsets.mem_indices.mp hi).elim (hread i)
    exact hs.step_of_done (list_built hb hf hd hlines)

/-- Settles O42, bit by bit: each bound's bits fall in its own field, which the word left clear. -/
theorem wrapBoundsLandInExecctrl : Obligations.WrapBoundsLandInExecctrl := by
  unfold Obligations.WrapBoundsLandInExecctrl
  intro execctrl wrapBottom wrapTop hbottom htop hclear x
  have hzero (i : Nat) (hi : i < 10) : execctrl.getLsbD (7 + i) = false := by
    simpa [hi] using congrArg (BitVec.getLsbD · i) hclear
  refine ⟨toNat_extractLsb'_eq_of_testBit htop fun i hi => ?_, toNat_extractLsb'_eq_of_testBit hbottom fun i hi => ?_,
    extractLsb'_congr fun i hi => ?_, extractLsb'_congr fun i hi => ?_⟩
  · have hfield : execctrl.getLsbD (12 + i) = false := by
      rw [show 12 + i = 7 + (5 + i) by omega]
      exact hzero (5 + i) (by omega)
    have hrange : 12 + i < 32 := by omega
    have hother : ¬ 12 + i - 7 < 5 := by omega
    exact (getLsbD_wrapBoundsInto ..).trans (by rw [hfield]; simp [hrange, hother, hi])
  · have hrange : 7 + i < 32 := by omega
    have hother : ¬ 12 ≤ 7 + i := by omega
    exact (getLsbD_wrapBoundsInto ..).trans (by rw [hzero i (by omega)]; simp [hrange, hother, hi])
  · exact getLsbD_wrapBoundsInto_outside _ _ _ (.inr (by omega))
  · exact getLsbD_wrapBoundsInto_outside _ _ _ (.inl (by omega))

end
end

section
/-!
Proofs of the statements from spec/43_builder.md about every step and about runs: no read of an `UNWRITTEN` cell
(R199), what survives in the image and in the staging buffer (R197), the units of one block (R196) and forward labels
(R198).
-/

namespace Sys2Proof.Machine

variable {s t : State} {q : Request} {rest : List Request} {r : Response} {b : BlockIdx} {u : UnitIdx}
variable {k k' : Block} {active : Option UnitIdx} {buf : Memory} {f : Fault} {w : Word} {ws : List Word} {i n c : Nat}

/-! ## Faults -/

theorem selectBlock_ne_stuck : selectBlock n s ≠ .stuck f := by
  intro h
  unfold selectBlock at h
  split at h
  · cases h
  · cases h

theorem selectUnit_ne_stuck : selectUnit n s ≠ .stuck f := by
  intro h
  unfold selectUnit at h
  split at h
  · obtain ⟨b, -, h⟩ := withBlock_stuck h
    simp only at h
    split at h
    · cases h
    · split at h
      · cases h
      · cases h
  · cases h

theorem Marker.commandOf_ne_stuck {g : Nat → Offsets → Offsets} (hm : Marker q g) : commandOf q s ≠ .stuck f := by
  intro h
  rw [hm.commandOf_eq] at h
  obtain ⟨b, u, h⟩ := withUnit_stuck h
  simp only at h
  split at h
  · cases h
  · cases h

theorem emit_ne_stuck : emit w s ≠ .stuck f := by
  intro h
  obtain ⟨b, u, h⟩ := withUnit_stuck h
  simp only at h
  split at h
  · cases h
  · split at h
    · cases h
    · cases h

theorem configure_ne_stuck : configure s ≠ .stuck f := by
  intro h
  obtain ⟨b, u, h⟩ := withUnit_stuck h
  split at h
  · cases h
  · cases h

theorem enable_ne_stuck : enable n s ≠ .stuck f := by
  intro h
  unfold enable at h
  split at h
  · cases h
  · obtain ⟨b, -, h⟩ := withBlock_stuck h
    split at h
    · split at h
      · cases h
      · cases h
    · cases h

/-- R199: FINALIZE and LIST are the only commands that read a memory. -/
theorem commandOf_stuck (h : commandOf q s = .stuck f) : finalize s = .stuck f ∨ ∃ n, list n s = .stuck f := by
  cases q with
  | encode i => cases h
  | decode w o => cases h
  | sessionStart => cases h
  | concurrent => cases h
  | selectBlock n => exact absurd h selectBlock_ne_stuck
  | selectUnit n => exact absurd h selectUnit_ne_stuck
  | markStart => exact absurd h Marker.start.commandOf_ne_stuck
  | markWrapBottom => exact absurd h Marker.wrapBottom.commandOf_ne_stuck
  | markWrapTop => exact absurd h Marker.wrapTop.commandOf_ne_stuck
  | markEnd => exact absurd h Marker.endAt.commandOf_ne_stuck
  | emit w => exact absurd h emit_ne_stuck
  | label n => obtain ⟨b, -, h⟩ := withBlock_stuck h; cases h
  | configure => exact absurd h configure_ne_stuck
  | finalize => exact .inl h
  | enable m => exact absurd h enable_ne_stuck
  | list n => exact .inr ⟨n, h⟩

/-- A step faults only in a command that is stuck. -/
theorem step_fault (hn : step s = .fault f) :
    ∃ q rest, s.requests = q :: rest ∧ commandOf q (s.accept q rest) = .stuck f := by
  cases h : s.requests with
  | nil =>
    rw [step_idle h] at hn
    cases hn
  | cons q rest =>
    refine ⟨q, rest, rfl, ?_⟩
    rw [step_of_request h] at hn
    rcases serve_cases q (s.accept q rest) with ⟨i, rfl, hs⟩ | ⟨w, o, rfl, hs⟩ | ⟨rfl, hs⟩ | ⟨rfl, hs⟩ | hs
    · rw [hs, exec_encode _ (by rfl)] at hn
      cases hn
    · rw [hs, exec_decode _ (by rfl)] at hn
      cases hn
    · rw [hs] at hn
      cases hn
    · rw [hs] at hn
      cases hn
    · rw [hs] at hn
      rcases calculator_cases (commandOf q) (s.accept q rest) with
        ⟨e, -, hc⟩ | ⟨-, ⟨t', r, -, hc⟩ | ⟨e, -, hc⟩ | ⟨f', hd, hc⟩⟩
      · rw [hc] at hn
        cases hn
      · rw [hc] at hn
        cases hn
      · rw [hc] at hn
        cases hn
      · rw [hc] at hn
        cases hn
        exact hd

/-- R199: the cells below the cursor of an unfinalized block are written. -/
theorem State.BuildInv.buffer_written (hs : s.BuildInv) (hf : s.isFinalized b = false) (hi : i < s.cursor b) :
    i < Config.capacity ∧ (s.buf.lookup i).isSome = true := by
  obtain ⟨hcur, -⟩ := hs.blocks b
  obtain ⟨-, howned, hopen⟩ := hs.buffer
  obtain ⟨-, hwritten⟩ := howned b (hopen b hf (by omega))
  have hlt : i < 32 := hi.trans_le hcur
  exact ⟨hlt, hwritten ⟨i, hlt⟩ hi⟩

theorem State.BuildInv.finalize_ne_stuck (hs : s.BuildInv) : finalize s ≠ .stuck f := by
  intro h
  obtain ⟨b, -, hf, hread⟩ := finalize_stuck h
  obtain ⟨i, hi, hunread⟩ := bufferWords_error hread
  obtain ⟨hlt, hwritten⟩ := hs.buffer_written hf hi
  rcases hunread with hge | hnone
  · omega
  · simp [hnone] at hwritten

/-- R199: the image of a finalized program is written from its first word to its last. -/
theorem State.BuildInv.image_written {o : Offsets} (hs : s.BuildInv) (hf : s.isFinalized b = true)
    (hd : s.desc b u = .selected .finalized o) (hi : i ≤ o.endAt) :
    i < Config.capacity ∧ ((s.block b).imem.lookup i).isSome = true := by
  obtain ⟨hcur, hsound, -, himem, -⟩ := hs.blocks b
  obtain ⟨-, -, hloaded⟩ := Descriptor.sound_iff.mp (hsound u) _ o hd
  obtain ⟨-, -, -, -, hend⟩ := hloaded hf
  have hlt : i < 32 := by omega
  have hread := himem ⟨i, hlt⟩
  rw [← State.isFinalized_eq, hf] at hread
  exact ⟨hlt, hread.trans (decide_eq_true (hi.trans_lt hend))⟩

theorem State.BuildInv.list_ne_stuck (hs : s.BuildInv) : list n s ≠ .stuck f := by
  intro h
  obtain ⟨b, u, o, -, hf, ho, hread⟩ := list_stuck h
  obtain ⟨i, hi, hunread⟩ := listFrom_error hread
  obtain ⟨o', hd⟩ := Descriptor.finalOffsets_iff.mp (Option.isSome_of_eq_some ho)
  obtain rfl : o' = o := by
    rw [hd] at ho
    exact Option.some.inj ho
  obtain ⟨-, hle⟩ := Offsets.mem_indices.mp hi
  obtain ⟨hlt, hwritten⟩ := hs.image_written hf hd hle
  rcases hunread with hge | hnone
  · omega
  · simp [hnone] at hwritten

/-- R199: in a state that meets the invariant no step faults. -/
theorem State.Inv.step_ne_fault (hs : s.Inv) : step s ≠ .fault f := by
  intro hn
  obtain ⟨q, rest, -, hstuck⟩ := step_fault hn
  obtain ⟨hbuild, -⟩ := State.inv_iff.mp hs
  have haccept : (s.accept q rest).BuildInv := hbuild.of_sameBuild ⟨rfl, rfl, rfl, rfl, rfl⟩
  rcases commandOf_stuck hstuck with hfinalize | ⟨n, hlist⟩
  · exact haccept.finalize_ne_stuck hfinalize
  · exact haccept.list_ne_stuck hlist

/-- A run of any machine that faults does so in its first step or in the run of the rest. -/
theorem run_succ_of_fault {M : Host.Core} {n : Nat} {s : M.State} {f : M.Fault} (hn : M.run (n + 1) s = .fault f) :
    M.step s = .fault f ∨ ∃ t, M.step s = .next t ∧ M.run n t = .fault f := by
  rw [Host.Core.run] at hn
  cases hs : M.step s with
  | next t =>
    rw [hs] at hn
    exact .inr ⟨t, rfl, hn⟩
  | fault f' =>
    rw [hs] at hn
    exact .inl hn
  | refused x =>
    rw [hs] at hn
    cases hn

/-- R199 over runs: from a state that meets the invariant no run faults. -/
theorem State.Inv.runFrom_ne_fault (hs : s.Inv) : runFrom n s ≠ .fault f := by
  induction n generalizing s with
  | zero => nofun
  | succ n ih =>
    intro hn
    rcases run_succ_of_fault hn with hfault | ⟨t, ht, hn⟩
    · exact hs.step_ne_fault hfault
    · exact ih (stepKeepsTheInvariant s t hs ht) hn

/-! ## What survives -/

/-- R61: an edit of a finalized block keeps its image. -/
theorem BlockEdit.imem_of_finalized (h : BlockEdit k active buf q k') (hf : k.finalized = true) :
    k'.imem = k.imem := by
  cases h with
  | selectUnit => rfl
  | mark => rfl
  | emit => rfl
  | configure => rfl
  | finalize hopen => exact absurd (hopen.symm.trans hf) Bool.false_ne_true
  | enable => rfl

theorem memWrite_notMem_memWrites {b₀ : BlockIdx} (hb : b₀ ≠ b) (ws : List Word) (i : Nat) (w : Word) :
    Output.memWrite b i w ∉ memWrites b₀ 0 ws := by
  rw [memWrites_eq]
  simp [hb]

theorem memWrite_notMem_wrapOutputs {b₀ : BlockIdx} (us : List UnitIdx) (i : Nat) (w : Word) :
    Output.memWrite b i w ∉ us.filterMap (wrapOutput b₀ k) := by
  simp [wrapOutput]

/-- R61: what a command issues holds no `MemWrite` to a finalized block. -/
theorem commandOf_done_memWrites (h : commandOf q s = .done t r) (hf : s.isFinalized b = true) :
    ∃ os, t.outputs = s.outputs ++ os ∧ ∀ i w, Output.memWrite b i w ∉ os := by
  by_cases hfin : q = .finalize
  · subst hfin
    obtain ⟨b₀, ws, -, hopen, -, -, -, rfl⟩ := finalize_done h
    have hne : b₀ ≠ b := by
      rintro rfl
      exact Bool.false_ne_true (hopen.symm.trans hf)
    refine ⟨_, List.append_assoc .., fun i w hmem => ?_⟩
    rcases List.mem_append.mp hmem with hmem | hmem
    · exact memWrite_notMem_memWrites hne ws i w hmem
    · exact memWrite_notMem_wrapOutputs allUnits i w hmem
  by_cases hen : ∃ m, q = .enable m
  · obtain ⟨m, rfl⟩ := hen
    obtain ⟨b₀, starts, -, -, -, -, -, -, rfl⟩ := enable_done h
    exact ⟨_, rfl, by simp⟩
  · exact ⟨[], by simp [commandOf_done_keeps_outputs hfin (not_exists.mp hen) h], by simp⟩

/-- R61: no step issues a `MemWrite` to a finalized block. -/
theorem step_next_memWrites (h : s.requests = q :: rest) (hn : step s = .next t) (hf : s.isFinalized b = true) :
    ∃ os, t.outputs = s.outputs ++ os ∧ ∀ i w, Output.memWrite b i w ∉ os := by
  rcases step_next_cases h hn with
    ⟨-, r, -, rfl⟩ | ⟨-, rfl⟩ | ⟨-, rfl⟩ | ⟨-, e, -, rfl⟩ | ⟨-, t', r, hd, rfl, -⟩
  · exact ⟨[], by simp, by simp⟩
  · exact ⟨[], by simp, by simp⟩
  · exact ⟨[], by simp, by simp⟩
  · exact ⟨[], by simp, by simp⟩
  · simpa using commandOf_done_memWrites hd hf

/-- R189, R197: EMIT keeps the words of every block that is not finalized: another such block's own the buffer and
refuse it, and its own block's lie below the cell it writes. -/
theorem emit_done_keeps_words (hs : s.BufferInv) (h : emit w s = .done t r) (hf : s.isFinalized b = false)
    (hi : i < s.cursor b) : t.buf.lookup i = s.buf.lookup i := by
  obtain ⟨b₀, u, -, -, -, -, -, hfree, -, rfl⟩ := emit_done h
  obtain ⟨-, -, hopen⟩ := hs
  rw [State.setBlock_buf]
  rcases interleaves_eq_false hfree (hopen b hf (by omega)) with rfl | hfin
  · exact Memory.lookup_write_other _ hi.ne _
  · exact absurd (hf.symm.trans hfin) Bool.false_ne_true

/-- R25, R197: no command changes a word of a block that is not finalized. -/
theorem commandOf_done_keeps_words (hs : s.BufferInv) (h : commandOf q s = .done t r) (hf : s.isFinalized b = false)
    (hi : i < s.cursor b) : t.buf.lookup i = s.buf.lookup i := by
  obtain ⟨⟨hbuf, -⟩ | ⟨w, rfl⟩, -⟩ := commandOf_done_keeps_buffer_and_selection h
  · rw [hbuf]
  · exact emit_done_keeps_words hs h hf hi

/-! ## Forward labels -/

/-- R189: what an EMIT into block `b` needs apart from room in the staging buffer. -/
structure State.MayEmit (s : State) (b : BlockIdx) : Prop where
  running : s.status = .running
  activeBlock : s.activeBlock = some b
  notFinalized : s.isFinalized b = false
  unit : ∃ u p o, s.activeUnit = some u ∧ s.desc b u = .selected p o
  unowned : ¬ s.otherOwner b

theorem State.MayEmit.step_emit (hs : s.MayEmit b) (h : s.requests = .emit w :: rest) (hc : s.cursor b < 32) :
    step s = .next (s.emitted rest b w) := by
  obtain ⟨u, p, o, hu, hd⟩ := hs.unit
  have hserves : s.Serves (.emit w) rest := ⟨h, hs.running, rfl⟩
  have hfree : ¬ interleaves s b = true := fun hi => hs.unowned (interleaves_iff.mp hi)
  rw [hserves.step_emit,
    State.forUnit_of_ok _ (requireUnit_of_selected hs.activeBlock hs.notFinalized hu hd) hd,
    if_neg (Nat.not_le.mpr hc), if_neg hfree]

theorem State.emitted_block (s : State) (rest : List Request) (b : BlockIdx) (w : Word) :
    (s.emitted rest b w).block b = { s.block b with cursor := s.cursor b + 1 } :=
  State.setBlock_block_same s b _

/-- R26, R189: after an EMIT its block may emit again. -/
theorem State.MayEmit.emitted (hs : s.MayEmit b) (rest : List Request) (w : Word) :
    (s.emitted rest b w).MayEmit b where
  running := hs.running
  activeBlock := hs.activeBlock
  notFinalized := by
    rw [State.isFinalized_eq, State.emitted_block]
    exact hs.notFinalized
  unit := by
    obtain ⟨u, p, o, hu, hd⟩ := hs.unit
    refine ⟨u, p, o, hu, ?_⟩
    rw [State.desc_eq, State.emitted_block]
    exact hd
  unowned := by
    rintro ⟨b₂, howner, hne, -⟩
    exact hne (Option.some.inj howner).symm

/-- R189, R198: EMITs within the capacity are all answered, with consecutive indices. -/
theorem runFrom_emits_answers (hs : s.MayEmit b) (h : s.requests = ws.map Request.emit ++ rest)
    (hc : s.cursor b + ws.length ≤ 32) :
    ∃ t, runFrom ws.length s = .next t ∧ t.status = .running ∧
      t.responses = s.responses ++ (List.range ws.length).map (fun k => .value (s.cursor b + k)) := by
  induction ws generalizing s with
  | nil => exact ⟨s, rfl, hs.running, by simp⟩
  | cons w ws ih =>
    rw [List.length_cons] at hc
    have hstep := hs.step_emit (rest := ws.map Request.emit ++ rest) h (by omega)
    have hcursor : (s.emitted (ws.map Request.emit ++ rest) b w).cursor b = s.cursor b + 1 := by
      rw [State.cursor_eq, State.emitted_block]
    obtain ⟨t, hrun, ht, hresp⟩ := ih (hs.emitted _ w) rfl (by rw [hcursor]; omega)
    refine ⟨t, runFrom_succ_eq_next_iff.mpr ⟨_, hstep, hrun⟩, ht, ?_⟩
    have hfirst : (s.emitted (ws.map Request.emit ++ rest) b w).responses =
        s.responses ++ [.value (s.cursor b)] := rfl
    rw [hresp, hcursor, hfirst, List.length_cons, List.range_succ_eq_map]
    simp [Function.comp_def, Nat.add_assoc, Nat.add_comm 1]

/-! ## The units of one block -/

/-- R27: unit `u` of block `b` has a program whose `first_instr` is `c`. -/
def State.BeginsAt (s : State) (b : BlockIdx) (u : UnitIdx) (c : Nat) : Prop :=
  ∃ p o, s.desc b u = .selected p o ∧ o.firstInstr = c

theorem State.BeginsAt.step (hs : s.BeginsAt b u c) (h : s.requests = q :: rest) (hq : q ≠ .sessionStart)
    (hu : q ≠ .selectUnit u.val) (hn : step s = .next t) : t.BeginsAt b u c := by
  obtain ⟨p, o, hd, rfl⟩ := hs
  obtain ⟨p', o', hd', hfirst, -⟩ := offsetsChangeOnlyByTheirMarkers s t q rest h hq hn b u p o hd (.inl hu)
  exact ⟨p', o', hd', hfirst⟩

/-- R184: a SELECT_UNIT that does not fail begins the unit's program at the cursor. -/
theorem step_selectUnit_running (hb : s.activeBlock = some b) (h : s.requests = .selectUnit u.val :: rest)
    (hn : step s = .next t) (ht : t.status = .running) : t.BeginsAt b u (s.cursor b) := by
  obtain ⟨t', r, hd, rfl⟩ := step_next_done_of_running h rfl hn ht
  obtain ⟨b', v, hv, hb', -, -, -, rfl⟩ := selectUnit_done hd
  obtain rfl : b = b' := Option.some.inj (hb.symm.trans hb')
  obtain rfl : v = u := Fin.ext hv
  refine ⟨.building, ⟨s.cursor b, s.cursor b, s.cursor b, s.cursor b, s.cursor b⟩, ?_, rfl⟩
  rw [State.desc_eq, State.respond_block, State.setDesc_block, if_pos rfl, Block.descOf_set, if_pos rfl]
  rfl

/-- R22: only SESSION_START and SELECT_BLOCK move the selected block. -/
theorem step_next_keeps_activeBlock (hb : s.activeBlock = some b) (h : s.requests = q :: rest)
    (hq : q ≠ .sessionStart) (hsel : ∀ n, q ≠ .selectBlock n) (hn : step s = .next t) : t.activeBlock = some b := by
  rcases step_next_sameBuild_or_done h hq hn with ⟨hab, -⟩ | ⟨t', r, hd, rfl⟩
  · exact hab.trans hb
  · obtain ⟨-, ⟨hab, -⟩ | ⟨n, rfl⟩ | ⟨n, rfl⟩⟩ := commandOf_done_keeps_buffer_and_selection hd
    · exact hab.trans hb
    · exact absurd rfl (hsel n)
    · obtain ⟨b', u, -, -, -, -, -, rfl⟩ := selectUnit_done hd
      exact hb

theorem Request.isEmit_iff : q.isEmit = true ↔ ∃ w, q = .emit w := by
  cases q <;> simp [Request.isEmit]

/-- R24, R189: a step that leaves the session running moves the selected block's cursor by one if it is an EMIT, and
by nothing otherwise. -/
theorem step_next_cursor_running (hb : s.activeBlock = some b) (h : s.requests = q :: rest) (hq : q ≠ .sessionStart)
    (hn : step s = .next t) (ht : t.status = .running) :
    t.cursor b = s.cursor b + if q.isEmit = true then 1 else 0 := by
  by_cases hemit : ∃ w, q = .emit w
  · obtain ⟨w, rfl⟩ := hemit
    exact (step_emit_running hb h hn ht).cursor
  · rw [if_neg (mt Request.isEmit_iff.mp hemit)]
    exact (onlyEmitMovesACursor s t q rest h hq hn b).resolve_right fun ⟨hw, _⟩ => hemit hw

/-- R196: requests without SESSION_START and SELECT_BLOCK, none failing, stay in the block and move its cursor by the
number of EMITs among them. -/
theorem runFrom_cursor_running {qs : List Request} (hqs : ∀ q ∈ qs, q ≠ .sessionStart ∧ ∀ n, q ≠ .selectBlock n)
    (hb : s.activeBlock = some b) (h : s.requests = qs ++ rest) (hn : runFrom qs.length s = .next t)
    (ht : t.status = .running) : t.activeBlock = some b ∧ t.cursor b = s.cursor b + qs.countP Request.isEmit := by
  induction qs generalizing s with
  | nil => cases hn; exact ⟨hb, rfl⟩
  | cons q qs ih =>
    obtain ⟨⟨hq, hsel⟩, hqs⟩ := List.forall_mem_cons.mp hqs
    obtain ⟨v, hv, hn⟩ := runFrom_succ_eq_next_iff.mp hn
    obtain ⟨hreq, -⟩ := step_next_answers_once h hv
    have hrun : v.status = .running := runFrom_running (fun q hmem => (hqs q hmem).1) hreq hn ht
    obtain ⟨hbt, hcursor⟩ := ih hqs (step_next_keeps_activeBlock hb h hq hsel hv) hreq hn
    rw [step_next_cursor_running hb h hq hv hrun] at hcursor
    refine ⟨hbt, hcursor.trans ?_⟩
    rw [List.countP_cons]
    omega

theorem State.BeginsAt.runFrom {qs : List Request} (hs : s.BeginsAt b u c)
    (hqs : ∀ q ∈ qs, q ≠ .sessionStart ∧ q ≠ .selectUnit u.val) (h : s.requests = qs ++ rest)
    (hn : runFrom qs.length s = .next t) : t.BeginsAt b u c := by
  induction qs generalizing s with
  | nil => cases hn; exact hs
  | cons q qs ih =>
    obtain ⟨⟨hq, hu⟩, hqs⟩ := List.forall_mem_cons.mp hqs
    obtain ⟨v, hv, hn⟩ := runFrom_succ_eq_next_iff.mp hn
    obtain ⟨hreq, -⟩ := step_next_answers_once h hv
    exact ih (hs.step h hq hu hv) hqs hreq hn

end Sys2Proof.Machine

section
open Sys2Proof Sys2Proof.Machine

/-- Settles O45: FINALIZE and LIST are the only readers, and the invariant has their cells written. -/
theorem invariantStatesNeverFault : Obligations.InvariantStatesNeverFault := by
  unfold Obligations.InvariantStatesNeverFault
  exact fun s f hs => hs.step_ne_fault

/-- Settles O46, by induction on the steps: power-on meets the invariant whatever requests wait, every step keeps it
(O44), and none faults in it (O45). -/
theorem runsFromResetNeverFault : Obligations.RunsFromResetNeverFault := by
  unfold Obligations.RunsFromResetNeverFault
  intro n qs f
  have hinv : ({ State.reset with requests := qs } : State).Inv :=
    State.inv_iff.mpr ⟨State.reset_buildInv.of_sameBuild ⟨rfl, rfl, rfl, rfl, rfl⟩, by simp [State.reset], rfl⟩
  exact hinv.runFrom_ne_fault

/-- Settles O51: a block is kept or edited, and no edit of a finalized block touches its flag or its image. -/
theorem finalizedImageIsFixed : Obligations.FinalizedImageIsFixed := by
  unfold Obligations.FinalizedImageIsFixed
  intro s t q rest b h hq hf hn
  have houtputs := step_next_memWrites h hn hf
  rcases step_next_block h hq hn b with hkept | ⟨-, hedit⟩
  · exact ⟨(congrArg Block.finalized hkept).trans hf, congrArg Block.imem hkept, houtputs⟩
  · exact ⟨hedit.finalized_of_finalized hf, hedit.imem_of_finalized hf, houtputs⟩

/-- Settles O52: only EMIT writes the buffer, and the invariant makes an unfinalized block with words its owner. -/
theorem unfinalizedWordsSurvive : Obligations.UnfinalizedWordsSurvive := by
  unfold Obligations.UnfinalizedWordsSurvive
  intro s t q rest b hinv h hq hf hn i hi
  obtain ⟨-, hbuffer, -⟩ := hinv
  rcases step_next_sameBuild_or_done h hq hn with ⟨-, -, -, hbuf, -⟩ | ⟨t', r, hd, rfl⟩
  · rw [hbuf]
  · have haccept : (s.accept q rest).BufferInv := hbuffer.of_kept rfl rfl (fun _ => rfl) fun _ => id
    exact commandOf_done_keeps_words (s := s.accept q rest) (t := t') haccept hd hf hi

/-- Settles O54: LABEL answers the cursor plus the delta and changes nothing, and the EMITs after it take consecutive
cells from the cursor on. -/
theorem forwardLabelIsExact : Obligations.ForwardLabelIsExact := by
  unfold Obligations.ForwardLabelIsExact
  intro s b u p o n ws rest hrun hb hf hu hd hfree hlen hroom h
  have hs : s.Serves (.label n) (ws.map Request.emit ++ rest) := ⟨h, hrun, rfl⟩
  have hlabel := hs.step_of_done (withBlock_some hb)
  have hmay : (s.answered (ws.map Request.emit ++ rest) (.value (s.cursor b + n))).MayEmit b :=
    ⟨hrun, hb, hf, ⟨u, p, o, hu, hd⟩, hfree⟩
  obtain ⟨t, hn, ht, hresp⟩ := runFrom_emits_answers (rest := rest) hmay rfl (by rw [hlen]; exact hroom)
  have hemitted := runFrom_emits hmay.activeBlock hmay.notFinalized rfl hn ht
  have hreq := runFrom_requests (qs := ws.map Request.emit) (rest := rest) rfl (by simpa using hn)
  rw [hlen] at hresp
  refine ⟨t, ?_, hreq, ht, hresp, ?_⟩
  · rw [hlen] at hn
    exact runFrom_succ_eq_next_iff.mpr ⟨_, hlabel, hn⟩
  · have hbuf : t.buf = s.buf.writeFrom (s.cursor b) ws := hemitted.buf
    rw [hbuf, Memory.lookup_writeFrom, if_pos (by omega), Nat.add_sub_cancel_left]

/-- Settles O55: SELECT_UNIT captures the cursor, which the requests between move by their EMITs alone, and only a new
SELECT_UNIT of the unit moves its `first_instr`. -/
theorem unitsOfABlockAreContinuous : Obligations.UnitsOfABlockAreContinuous := by
  unfold Obligations.UnitsOfABlockAreContinuous
  intro s t b ua ub qs rest hb h hqs hn ht
  obtain ⟨v, hv, hn⟩ := runFrom_succ_eq_next_iff.mp hn
  obtain ⟨hreqv, -⟩ := step_next_answers_once h hv
  obtain ⟨x, hx, hn⟩ := runFrom_add_next hn
  obtain ⟨t', hstep, hn⟩ := runFrom_succ_eq_next_iff.mp hn
  cases hn
  have hreqx : x.requests = .selectUnit ub.val :: rest := runFrom_requests hreqv hx
  have hrunx : x.status = .running := step_next_running hreqx (by simp) hstep ht
  have hrunv : v.status = .running := runFrom_running (fun q hmem => (hqs q hmem).1) hreqv hx hrunx
  have hbv : v.activeBlock = some b := step_next_keeps_activeBlock hb h (by simp) (by simp) hv
  have hcurv : v.cursor b = s.cursor b := step_next_cursor_running hb h (by simp) hv hrunv
  obtain ⟨hbx, hcurx⟩ := runFrom_cursor_running hqs hbv hreqv hx hrunx
  refine ⟨?_, fun hne hother => ?_⟩
  · rw [← hcurv, ← hcurx]
    exact step_selectUnit_running hbx hreqx hstep ht
  · have hbegin : v.BeginsAt b ua (s.cursor b) := step_selectUnit_running hb h hv hrunv
    have hkept := hbegin.runFrom (fun q hmem => ⟨(hqs q hmem).1, hother q hmem⟩) hreqv hx
    exact hkept.step hreqx (by simp) (by simpa [Fin.ext_iff] using Ne.symm hne) hstep

end
end

section
/-!
Proofs of the statements from spec/60_exceptions.md: the values of the error codes (R221), what a failing request does
(R222, R223) and the second requester (R232).
-/

namespace Sys2Proof.Machine

variable {s t : State} {q : Request} {rest : List Request} {code : ErrorCode} {refusal : Refusal}

/-! ## The values of the error codes -/

/-- The error codes in the order of R221's table. -/
def ErrorCode.table : List ErrorCode :=
  [.blockIndexOutOfRange, .unitIndexOutOfRange, .enableMaskInvalid, .noBlockSelected, .noUnitSelected,
    .blockFinalized, .capacityExceeded, .offsetOutOfRange, .bufferInterleave, .descriptorInvariant,
    .notFinalized, .unitNotBuilt, .sessionAborted]

/-- R221: the value of a code is its place in the table, counted from 1. -/
theorem ErrorCode.table_getElem?_value (c : ErrorCode) : ErrorCode.table[c.value - 1]? = some c := by
  cases c <;> rfl

theorem ErrorCode.value_injective : Function.Injective ErrorCode.value := fun c d h =>
  Option.some.inj <| calc
    some c = ErrorCode.table[c.value - 1]? := (ErrorCode.table_getElem?_value c).symm
    _ = ErrorCode.table[d.value - 1]? := by rw [h]
    _ = some d := ErrorCode.table_getElem?_value d

/-! ## What a step that answers an error code did -/

/-- A step with no request waiting gives no answer. -/
theorem requests_ne_nil_of_answer {r : Response} (hn : step s = .next t) (hr : t.responses = s.responses ++ [r]) :
    s.requests ≠ [] := by
  intro h
  rw [step_idle h] at hn
  cases hn
  simp at hr

/-- R223: of all that a request can do only two things answer an error code, a command that raises it and the refusal
of an aborted session. -/
theorem step_next_error_cases (h : s.requests = q :: rest) (hn : step s = .next t)
    (hr : t.responses = s.responses ++ [.error code]) :
    (s.status = .running ∧ code ≠ .sessionAborted ∧ t = s.raised rest code) ∨
    ((∃ first, s.status = .aborted first) ∧ code = .sessionAborted ∧ t = s.answered rest (.error code)) := by
  rcases step_next_cases h hn with
    ⟨-, r, hcode, rfl⟩ | ⟨-, rfl⟩ | ⟨haborted, rfl⟩ | ⟨hrun, e, hraise, rfl⟩ | ⟨-, t', r, hdone, rfl, -⟩
  · obtain rfl : r = .error code := by simpa using hr
    exact absurd rfl (Response.ne_error_of_code_eq_zero hcode code)
  · simp at hr
  · obtain rfl : ErrorCode.sessionAborted = code := by simpa using hr
    exact .inr ⟨haborted, rfl, rfl⟩
  · obtain rfl : e = code := by simpa using hr
    exact .inl ⟨hrun, commandOf_raise_ne_sessionAborted hraise, rfl⟩
  · obtain ⟨-, -, hresponses, -, hne⟩ := commandOf_done_frame hdone
    obtain rfl : r = .error code := by simpa [hresponses] using hr
    exact absurd rfl (hne code)

/-! ## Refusals -/

theorem step_concurrent (h : s.requests = .concurrent :: rest) : step s = .refused .secondRequester := by
  rw [step_of_request h]
  rfl

/-- A command of the calculator is answered or stuck, and never refused. -/
theorem calculator_ne_refused (command : State → Reply) : calculator command s ≠ .refused refusal := by
  rcases calculator_cases command s with ⟨e, -, hc⟩ | ⟨-, ⟨t, r, -, hc⟩ | ⟨e, -, hc⟩ | ⟨f, -, hc⟩⟩
  · simp [hc]
  · simp [hc]
  · simp [hc]
  · simp [hc]

/-- R232: serving is refused for a second requester alone. -/
theorem serve_accept_refused (hn : serve q (s.accept q rest) = .refused refusal) :
    refusal = .secondRequester ∧ q = .concurrent := by
  rcases serve_cases q (s.accept q rest) with ⟨i, rfl, hs⟩ | ⟨w, o, rfl, hs⟩ | ⟨rfl, hs⟩ | ⟨rfl, hs⟩ | hs
  · rw [hs, exec_encode _ (by rfl)] at hn
    cases hn
  · rw [hs, exec_decode _ (by rfl)] at hn
    cases hn
  · rw [hs] at hn
    cases hn
  · rw [hs] at hn
    cases hn
    exact ⟨rfl, rfl⟩
  · rw [hs] at hn
    exact absurd hn (calculator_ne_refused _)

theorem step_refused (hn : step s = .refused refusal) :
    refusal = .secondRequester ∧ s.requests.head? = some .concurrent := by
  cases h : s.requests with
  | nil =>
    rw [step_idle h] at hn
    cases hn
  | cons q rest =>
    rw [step_of_request h] at hn
    obtain ⟨rfl, rfl⟩ := serve_accept_refused hn
    exact ⟨rfl, rfl⟩

end Sys2Proof.Machine

section
open Sys2Proof Sys2Proof.Machine

/-- Settles O28, by what a step that answers did. -/
theorem failingRequestChangesOnlyTheStatus : Obligations.FailingRequestChangesOnlyTheStatus := by
  unfold Obligations.FailingRequestChangesOnlyTheStatus
  intro s t q rest code h hn hr
  exact step_next_error_cases h hn hr

/-- Settles O27: the first clause is a raised error, since the refusal of an aborted session has the code excluded;
the second is R181 and the third R225. -/
theorem firstErrorEndsTheSession : Obligations.FirstErrorEndsTheSession := by
  unfold Obligations.FirstErrorEndsTheSession
  refine ⟨fun s t code hn hr hcode => ?_, fun s q rest code h hq hs => ?_, fun s t code hs hn hq => ?_⟩
  · obtain ⟨q, rest, h⟩ := List.exists_cons_of_ne_nil (requests_ne_nil_of_answer hn hr)
    rcases step_next_error_cases h hn hr with ⟨-, -, rfl⟩ | ⟨-, haborted, -⟩
    · rfl
    · exact absurd haborted hcode
  · exact ⟨_, abortedSessionRefusesEveryCommand s q rest code h hq hs, rfl⟩
  · cases h : s.requests with
    | nil =>
      rw [step_idle h] at hn
      cases hn
      exact hs
    | cons q rest => exact step_next_status_of_aborted h hs (by simpa [h] using hq) hn

/-- Settles O30: an idle step is a next state, and the refusals are those of `serve`. -/
theorem onlyASecondRequesterIsRefused : Obligations.OnlyASecondRequesterIsRefused := by
  unfold Obligations.OnlyASecondRequesterIsRefused
  exact ⟨fun _ _ h => step_concurrent h, fun _ h => step_idle h, fun _ _ hn => step_refused hn⟩

/-- Settles O29: the table is computed, and a code is read back from its value. -/
theorem errorCodesHaveTheTablesValues : Obligations.ErrorCodesHaveTheTablesValues := by
  unfold Obligations.ErrorCodesHaveTheTablesValues
  exact ⟨rfl, rfl, fun _ _ h => ErrorCode.value_injective h⟩

end
end

section
/-!
Proofs of the statement from spec/70_reset_and_hazards.md: SESSION_START restores the power-on state (R250).
-/

namespace Sys2Proof.Machine

/-- R250: SESSION_START is power-on in all but the request stream and the two logs, and its `OK` is the one answer
added. -/
theorem State.sessionStart_eq_reset_with (s : State) :
    s.sessionStart = { State.reset with
      requests := s.requests, responses := s.responses ++ [.ok], outputs := s.outputs } := rfl

end Sys2Proof.Machine

section
open Sys2Proof Sys2Proof.Machine

/-- Settles O25: whatever the status, the step accepts the request and starts the session, and accepting it keeps the
logs. -/
theorem sessionStartRestoresEveryPieceOfState : Obligations.SessionStartRestoresEveryPieceOfState := by
  unfold Obligations.SessionStartRestoresEveryPieceOfState
  intro s rest h
  rw [step_sessionStart h, State.sessionStart_eq_reset_with, State.accept_requests, State.accept_responses,
    State.accept_outputs]

end
end
